-- ==== Sys2Proof/Word.lean ====
section
/-! DEFINITION. The sizes of value the QCU works on (00_scope.md rule R10): word, byte and nibble. -/

namespace Sys2Proof

/-- A word is 32 bits, bit 0 the least significant (R10). -/
abbrev Word := BitVec 32

/-- A byte is 8 bits (R10). -/
abbrev Byte := BitVec 8

/-- A half of a message byte: 4 bits, values 0 to 15 (R6 `NIB_BITS`, R14). -/
abbrev Nibble := BitVec 4

end Sys2Proof
end

