-- ==== Sys2Proof/Config.lean ====
section
/-! DEFINITION. What is fixed for the machine: the parameters of 00_scope.md rule R6, the base offsets of the window map
(20_memory.md rule R51), and the two parameters rule R7 leaves to the platform, which are constants without a body. -/

namespace Sys2Proof

/-- `MSG_LEN`: bytes in a message (R6). -/
abbrev Config.msgLen : Nat := 48
/-- `BLK_LEN`: bytes in an encoded block (R6). -/
abbrev Config.blkLen : Nat := 192
/-- `CB_SIZE`: codewords in the Codebook (R6). -/
abbrev Config.cbSize : Nat := 16
/-- `CW_BITS`: bits in a codeword (R6). -/
abbrev Config.cwBits : Nat := 8
/-- `NIB_BITS`: bits in a nibble (R6). -/
abbrev Config.nibBits : Nat := 4
/-- `D_MIN`: minimum pairwise Hamming distance of the Codebook (R6). -/
abbrev Config.dMin : Nat := 3
/-- `SEED0` (R6). -/
abbrev Config.seed0 : Byte := 0xAA#8
/-- `SEED1` (R6). -/
abbrev Config.seed1 : Byte := 0x55#8
/-- `W_LO`: least set-bit count of a candidate codeword (R6). -/
abbrev Config.wLo : Nat := 2
/-- `W_HI`: greatest set-bit count of a candidate codeword (R6). -/
abbrev Config.wHi : Nat := 6
/-- `SENTINEL`: the ReverseMap's ambiguous value (R6). -/
abbrev Config.sentinel : Nat := 16
/-- `RM_SIZE`: entries of the ReverseMap (R6). -/
abbrev Config.rmSize : Nat := 256
/-- `PLANES`: bit planes of a 48-byte buffer (R6). -/
abbrev Config.planes : Nat := 8
/-- `CHUNK`: bytes in a chunk, `MSG_LEN / PLANES` (R6). -/
abbrev Config.chunk : Nat := 6
/-- `STREAMS`: streams in an encoded block (R6). -/
abbrev Config.streams : Nat := 4
/-- `GROUPS`: 6-byte groups in a transposed stream (R6). -/
abbrev Config.groups : Nat := 8

/-- Size in bytes of the register window (R50). -/
abbrev Config.windowSize : Nat := 4096
/-- Window offset of `IN[0]` (R51). -/
abbrev Config.inBase : Nat := 0x100
/-- Window offset of `OUT[0]` (R51). -/
abbrev Config.outBase : Nat := 0x200
/-- Window offset of `CB[0]` (R51). -/
abbrev Config.cbwBase : Nat := 0x300
/-- Window offset of `RM[0]` (R51). -/
abbrev Config.rmwBase : Nat := 0x400

/-- The constant `ID` (10_state.md rule R22). -/
abbrev Config.idValue : Word := 0x51430701#32
/-- The constant `PARAM` (10_state.md rule R27). -/
abbrev Config.paramValue : Word := 0x6310C030#32

/-- The 4 KiB page of the host's address space that holds the window. The spec leaves it open (R7, P1 of
93_implementation_defined.md), so it has no body: a claim holds for every page. Log entry 3. -/
opaque Config.qcuBasePage : Nat

/-- `QCU_BASE`, a multiple of 4096 (R7). -/
def Config.qcuBase : Nat := Config.windowSize * Config.qcuBasePage

/-- How many cycles more than one the `CMD` write of a command word is held. Left open (R7, P2), so it has no body.
Log entry 4. -/
opaque Config.latExtra : Word → Nat

/-- `LAT`: how many interface clock cycles a `CMD` write is held, finite and at least 1 (R7, R196). The model has no
time (R197): no step reads it. -/
def Config.lat (w : Word) : Nat := Config.latExtra w + 1

end Sys2Proof
end

