-- ==== Sys2Proof/Syntax.lean ====
section
/-! DEFINITION. The commands of the QCU as syntax: one constructor per row of spec/opcode_table.json. A command word has
one format (30_encoding.md rule R70) and every 32-bit word is a command word (rule R73), so every constructor carries
the four fields of the format that are not the opcode. Whether the fields are the ones a command requires is checked
by WellFormed.lean and by each command's meaning. -/

namespace Sys2Proof

/-- The fields of a command word other than `OP` (R70). -/
structure Fields where
  /-- `RSV0`, bits 7:4, reserved. -/
  rsv0 : BitVec 4
  /-- `ARG`, bits 15:8, the byte operand of `ENCNIB` and `LOOKUP`. -/
  arg : Byte
  /-- `RSV1`, bits 23:16, reserved. -/
  rsv1 : Byte
  /-- `LEN`, bits 31:24, the operand length in bytes of the buffer commands. -/
  len : Byte
deriving DecidableEq, Repr

/-- The commands, one constructor per row of the opcode table (R72, R74). -/
inductive Instr where
  /-- `NOP`, OP 0x0 (R105). -/
  | nop (f : Fields)
  /-- `ENCNIB n`, OP 0x1, n in `ARG[3:0]` (R120). -/
  | encnib (f : Fields)
  /-- `LOOKUP b`, OP 0x2, b in `ARG` (R121). -/
  | lookup (f : Fields)
  /-- `XFWD`, OP 0x3, length in `LEN` (R133). -/
  | xfwd (f : Fields)
  /-- `XREV`, OP 0x4, length in `LEN` (R134). -/
  | xrev (f : Fields)
  /-- `ENCODE`, OP 0x5, length in `LEN` (R144). -/
  | encode (f : Fields)
  /-- `DECODE`, OP 0x6, length in `LEN` (R155). -/
  | decode (f : Fields)
  /-- The reserved opcode 0x7 (R74, the table's first `reserved` row). -/
  | reserved7 (f : Fields)
  /-- The reserved opcodes 0x8 to 0xF; `low` is `OP[2:0]` (R74, the table's second `reserved` row). -/
  | reservedHigh (low : BitVec 3) (f : Fields)
deriving DecidableEq, Repr

end Sys2Proof
end

