-- ==== Sys2Proof/WellFormed.lean ====
section
/-! DEFINITION. Which commands are well-formed: the "required" columns of 30_encoding.md rule R72, which are the rows of
spec/opcode_table.json (a word is of a row when its masked bits match). -/

namespace Sys2Proof

/-- Both reserved fields are 0 (R75, first point). -/
def Fields.reservedClear (f : Fields) : Bool := f.rsv0 == 0#4 && f.rsv1 == 0#8

/-- The fields a command of the opcode table must have (R72). A reserved opcode's row leaves every other bit free. -/
def Instr.wf : Instr → Bool
  | .nop f => f.reservedClear && f.arg == 0#8 && f.len == 0#8
  | .encnib f => f.reservedClear && f.arg.extractLsb' 4 4 == 0#4 && f.len == 0#8
  | .lookup f => f.reservedClear && f.len == 0#8
  | .xfwd f => f.reservedClear && f.arg == 0#8 && f.len == 48#8
  | .xrev f => f.reservedClear && f.arg == 0#8 && f.len == 48#8
  | .encode f => f.reservedClear && f.arg == 0#8 && f.len == 48#8
  | .decode f => f.reservedClear && f.arg == 0#8 && f.len == 192#8
  | .reserved7 _ => true
  | .reservedHigh _ _ => true

end Sys2Proof
end

