-- ==== Sys2Proof/Decode.lean ====
section
/-! DEFINITION. Decoding and encoding of command words (30_encoding.md rules R70 to R76). Every 32-bit word is a command
word (R73), so decoding a word is total and pulls its fields apart, once. What is not one 32-bit word is rejected by
name. The checks of the decode function of rule R79 are made by the commands' meanings, in its order. -/

namespace Sys2Proof

/-- `OP`, bits 3:0 of a command word (R70, R71). -/
def opField (w : Word) : BitVec 4 := w.extractLsb' 0 4

/-- The fields of a command word other than `OP` (R70, R71): unsigned, not scaled, none split. -/
def fieldsOf (w : Word) : Fields :=
  { rsv0 := w.extractLsb' 4 4
    arg := w.extractLsb' 8 8
    rsv1 := w.extractLsb' 16 8
    len := w.extractLsb' 24 8 }

/-- The command of an opcode and fields: the opcode map (R72, R74). -/
def commandOf (op : BitVec 4) (f : Fields) : Instr :=
  match op.toNat with
  | 0 => .nop f
  | 1 => .encnib f
  | 2 => .lookup f
  | 3 => .xfwd f
  | 4 => .xrev f
  | 5 => .encode f
  | 6 => .decode f
  | 7 => .reserved7 f
  | _ => .reservedHigh (op.extractLsb' 0 3) f

/-- The command a word written to `CMD` stands for; total over all 2^32 words (R73). -/
def decode (w : Word) : Instr := commandOf (opField w) (fieldsOf w)

/-- Why bytes are no command word. -/
inductive DecodeReject where
  /-- Not exactly four bytes: a command is one 32-bit word and has no other length (R76). -/
  | notOneWord
deriving DecidableEq, Repr

/-- Four bytes as a word, the first in bits 7:0 (20_memory.md rule R55). -/
def wordOfBytes (b0 b1 b2 b3 : Byte) : Word := b3 ++ b2 ++ b1 ++ b0

/-- The bytes of a word, bits 7:0 first (R55). -/
def bytesOfWord (w : Word) : List Byte :=
  [w.extractLsb' 0 8, w.extractLsb' 8 8, w.extractLsb' 16 8, w.extractLsb' 24 8]

/-- The command held by the bytes of a bus word, lowest address first; total on any bytes. -/
def decodeBytes : List Byte → Except DecodeReject Instr
  | [b0, b1, b2, b3] => .ok (decode (wordOfBytes b0 b1 b2 b3))
  | _ => .error .notOneWord

/-- The `OP` value of a command (R72, R74). -/
def Instr.opcode : Instr → BitVec 4
  | .nop _ => 0x0#4
  | .encnib _ => 0x1#4
  | .lookup _ => 0x2#4
  | .xfwd _ => 0x3#4
  | .xrev _ => 0x4#4
  | .encode _ => 0x5#4
  | .decode _ => 0x6#4
  | .reserved7 _ => 0x7#4
  | .reservedHigh low _ => 1#1 ++ low

/-- The fields of a command other than `OP`. -/
def Instr.fields : Instr → Fields
  | .nop f => f
  | .encnib f => f
  | .lookup f => f
  | .xfwd f => f
  | .xrev f => f
  | .encode f => f
  | .decode f => f
  | .reserved7 f => f
  | .reservedHigh _ f => f

/-- A word put together from its fields, `LEN` highest (R70). -/
def packWord (op : BitVec 4) (f : Fields) : Word := f.len ++ f.rsv1 ++ f.arg ++ f.rsv0 ++ op

/-- The word of a command (R70, R72). -/
def encode (i : Instr) : Word := packWord i.opcode i.fields

/-- The command the decoder reads from a table row's word: bits numbered as spec/opcode_table.json numbers them, the
bits above `nbits` 0, laid out as bus bytes. A command has no bits above 31 (R76). -/
def decodeTableWord (nbits w : Nat) : Option Instr :=
  if nbits ≤ 32 then
    match decodeBytes (bytesOfWord (BitVec.ofNat 32 (w % 2 ^ nbits))) with
    | .ok i => some i
    | .error _ => none
  else none

end Sys2Proof
end

