-- ==== Sys2Proof/Machine/State.lean ====
section
/-! DEFINITION. The state of the QCU (10_state.md rule R21) with the bus it sits on, as plain data, its reset values
(rule R33), and the reasons a step can stop. -/

namespace Sys2Proof.Machine

/-- What a host access asks for. An instruction fetch from the window is a read (20_memory.md rule R61). -/
inductive AccessKind where
  /-- `MemRead` (R52). -/
  | read
  /-- A host instruction fetch from the window (R61). -/
  | fetch
  /-- `MemWrite` of the word `v` (R53). -/
  | write (v : Word)
deriving DecidableEq, Repr

/-- One host access as it reaches the QCU (00_scope.md rule R8). A data bus of 32 bits carries the word of a write; an
access of another width is never admitted, so its data is never looked at (R54). -/
structure Access where
  /-- Read, fetch or write. -/
  kind : AccessKind
  /-- Byte offset from `QCU_BASE` (R51). -/
  off : Nat
  /-- Width of the access in bits (R54). -/
  width : Nat
  /-- Which master issued it (R63). It changes nothing. -/
  master : Nat
  /-- The host mode it was issued in (60_exceptions.md rule R179). It changes nothing. -/
  hostMode : Nat
  /-- Whether it is part of an exclusive or locked sequence (R60). It changes nothing. -/
  exclusive : Bool
deriving DecidableEq, Repr

/-- What the host is answered on the bus. -/
inductive Response where
  /-- No answer yet. -/
  | none
  /-- A read completed with this data (R52). -/
  | readData (v : Word)
  /-- A write completed normally, a failing command's included (R56, R175). -/
  | writeDone
  /-- The bus error of an access that is not admitted; a read carries no value (R54, R173). -/
  | busError
deriving DecidableEq, Repr

/-- What the outside world does to the QCU. -/
inductive Event where
  /-- One host access (R8). -/
  | access (a : Access)
  /-- The reset input is asserted between accesses (70_reset_and_hazards.md rule R190). -/
  | reset
  /-- The reset input is asserted while the `CMD` write of `w` is held: the command is abandoned, and the write gets
  whatever answer the platform gives it (R190; P9 of 93_implementation_defined.md; log entry 5). -/
  | resetDuringCommand (w : Word) (platformReply : Response)
deriving DecidableEq, Repr

/-- The bytes of `IN` and `OUT` at their window offsets, as cells in one canonical form (`Memory.wf`). -/
abbrev Memory := List Host.Cell

/-- The machine. The first six fields are the record of rule R21, `IN` and `OUT` being held in `mem`; the last two are
the model's bus. -/
structure State where
  /-- `STATUS.ERR`, bits 3:0 of `STATUS` (R24). -/
  err : BitVec 4
  /-- `STATUS.DEC_ERR`, bit 4 of `STATUS` (R24). -/
  decErr : Bool
  /-- `STATUS.AMBIG`, bit 5 of `STATUS` (R24). -/
  ambig : Bool
  /-- `RESULT.VALUE` (R25). -/
  result : Byte
  /-- `OUT_LEN.LEN` (R26). -/
  outLen : Byte
  /-- `IN[0..191]` at offsets 0x100 to 0x1BF and `OUT[0..191]` at 0x200 to 0x2BF (R28, R29, R51). -/
  mem : Memory
  /-- Host events not yet served, oldest first (R58; the model's own, log entry 1). -/
  pending : List Event
  /-- What the host was answered last (the model's own, log entry 2). -/
  response : Response
deriving DecidableEq, Repr

/-- Nothing faults: every admitted access completes, every command word has a defined result, no error locks the unit
and an access that is not admitted is answered with a bus error (R54, R73, R176; 93_implementation_defined.md, "There
is no `stuck` outcome anywhere in the QCU"). The type has no constructor, so no meaning can answer a fault: safe. -/
inductive Fault
deriving DecidableEq, Repr

/-- Why a step has no meaning. -/
inductive Refusal where
  /-- Raised by an arm of `exec` for an instruction that has no meaning yet: safe. No arm raises it. -/
  | notModelled (mnemonic : String)
deriving DecidableEq, Repr

/-- The machine right after reset (R33): every field 0 and both buffers all 0x00. The model's bus starts with nothing
pending and nothing answered (log entries 1 and 2). -/
def State.reset : State :=
  { err := 0#4
    decErr := false
    ambig := false
    result := 0#8
    outLen := 0#8
    mem := []
    pending := []
    response := .none }

end Sys2Proof.Machine
end

