-- ==== Sys2Proof/Machine/Bits.lean ====
section
/-! DEFINITION. The arithmetic of the QCU: popcount, Hamming distance, nibbles, and byte sequences with their bits
(41_codebook.md rules R110 and R111, 00_scope.md rules R10 and R11). -/

namespace Sys2Proof.Machine

/-- The number of 1 bits of a byte (R110). -/
def popcount (v : Byte) : Nat := (List.range Config.cwBits).countP fun b => v.getLsbD b

/-- The Hamming distance of two bytes (R110). -/
def hd (a b : Byte) : Nat := popcount (a ^^^ b)

/-- The high nibble of a byte, bits 7:4 (R111). -/
def hiNibble (b : Byte) : Nibble := b.extractLsb' 4 4

/-- The low nibble of a byte, bits 3:0 (R111). -/
def loNibble (b : Byte) : Nibble := b.extractLsb' 0 4

/-- Two nibbles combined into the byte `(h << 4) OR l` (R111). -/
def combineNibbles (h l : Nibble) : Byte := (h.setWidth 8 <<< 4) ||| l.setWidth 8

/-- Byte `k` of a byte sequence (R11). The commands only ask for bytes a sequence has. -/
def byteAt (x : List Byte) (k : Nat) : Byte := x.getD k 0#8

/-- The byte whose bit `k` is `f k` (R10). -/
def byteOfBits (f : Nat → Bool) : Byte :=
  (List.range 8).foldl (fun acc k => acc ||| ((BitVec.ofBool (f k)).setWidth 8 <<< k)) 0#8

/-- Word `w` of a byte array: `{X[4w+3], X[4w+2], X[4w+1], X[4w]}` (20_memory.md rules R52 and R55). -/
def wordAt (x : Nat → Byte) (w : Nat) : Word := wordOfBytes (x (4 * w)) (x (4 * w + 1)) (x (4 * w + 2)) (x (4 * w + 3))

end Sys2Proof.Machine
end

