-- ==== Sys2Proof/Machine/Memory.lean ====
section
/-! DEFINITION. Memory as cells in one canonical form: reading and writing bytes and little-endian words. -/

namespace Sys2Proof.Machine

/-- What a byte no cell lists reads as: the reset contents of `IN` and `OUT` (10_state.md rule R33). -/
def Memory.unlisted : Byte := 0x00#8

/-- The byte at a window offset. -/
def Memory.read : Memory → Nat → Byte
  | [], _ => Memory.unlisted
  | (k, b) :: m, a => if k = a then b else Memory.read m a

/-- Memory with no cell for an offset. -/
def Memory.erase (m : Memory) (a : Nat) : Memory := m.filter fun c => c.1 != a

/-- A cell put before the first cell of a greater offset. -/
def Memory.insert (c : Host.Cell) : Memory → Memory
  | [] => [c]
  | d :: m => if c.1 < d.1 then c :: d :: m else d :: Memory.insert c m

/-- One byte written. Writing what an unlisted byte reads as removes the cell. -/
def Memory.write (m : Memory) (a : Nat) (b : Byte) : Memory :=
  if b = Memory.unlisted then Memory.erase m a else Memory.insert (a, b) (Memory.erase m a)

/-- Consecutive bytes written, the first at offset `a`. -/
def Memory.writeBytes : Memory → Nat → List Byte → Memory
  | m, _, [] => m
  | m, a, b :: bs => Memory.writeBytes (Memory.write m a b) (a + 1) bs

/-- A word written little-endian at offset `a` (20_memory.md rules R53 and R55). -/
def Memory.writeWord (m : Memory) (a : Nat) (v : Word) : Memory := Memory.writeBytes m a (bytesOfWord v)

/-- Whether an offset of the window holds a byte of `IN` or `OUT` (20_memory.md rule R51). -/
def backed (a : Nat) : Bool :=
  (decide (Config.inBase ≤ a) && decide (a < Config.inBase + Config.blkLen)) ||
    (decide (Config.outBase ≤ a) && decide (a < Config.outBase + Config.blkLen))

/-- The canonical form: offsets strictly rising, no cell holding what an unlisted byte reads as, and cells for bytes of
`IN` and `OUT` only. Two memories of this form that read alike are equal. -/
abbrev Memory.wf (m : Memory) : Prop :=
  m.Pairwise (fun c d => c.1 < d.1) ∧ ∀ c ∈ m, c.2 ≠ Memory.unlisted ∧ backed c.1 = true

end Sys2Proof.Machine
end

