-- ==== Sys2Proof/Machine/Operands.lean ====
section
/-! DEFINITION. The operand forms of the commands: which fields a command requires and what it reports when they are
not so, in the order of the decode function (30_encoding.md rules R72, R75 and R79; 60_exceptions.md rule R174), and
where its operands come from (30_encoding.md rule R71). -/

namespace Sys2Proof.Machine

/-- What `STATUS.ERR` reports (60_exceptions.md rule R170). Codes 4 to 15 are never produced. -/
inductive ErrCode where
  /-- The command succeeded. -/
  | ok
  /-- `ERR_LENGTH`: `LEN` is not the length the opcode requires. -/
  | length
  /-- `ERR_OPCODE`: `OP` is in 0x7 to 0xF. -/
  | opcode
  /-- `ERR_RESERVED`: a reserved or must-be-zero field is nonzero. -/
  | reserved
deriving DecidableEq, Repr

/-- The check of a command with no operand, `NOP` (R72): `ARG` and `LEN` must be 0. -/
def checkNoOperand (f : Fields) : ErrCode :=
  if f.rsv0 = 0#4 ∧ f.rsv1 = 0#8 ∧ f.arg = 0#8 ∧ f.len = 0#8 then .ok else .reserved

/-- The check of a nibble operand, `ENCNIB` (R72): `ARG[7:4]` and `LEN` must be 0. -/
def checkNibbleOperand (f : Fields) : ErrCode :=
  if f.rsv0 = 0#4 ∧ f.rsv1 = 0#8 ∧ f.arg.extractLsb' 4 4 = 0#4 ∧ f.len = 0#8 then .ok else .reserved

/-- The check of a byte operand, `LOOKUP` (R72): `LEN` must be 0. -/
def checkByteOperand (f : Fields) : ErrCode :=
  if f.rsv0 = 0#4 ∧ f.rsv1 = 0#8 ∧ f.len = 0#8 then .ok else .reserved

/-- The check of a buffer command (R72): `ARG` must be 0, and then `LEN` the length the command requires. A reserved
field comes before the length (R174). -/
def checkBufferOperand (required : Byte) (f : Fields) : ErrCode :=
  if f.rsv0 = 0#4 ∧ f.rsv1 = 0#8 ∧ f.arg = 0#8 then
    if f.len = required then .ok else .length
  else .reserved

/-- The nibble operand, `ARG[3:0]` (R71). -/
def nibbleOperand (f : Fields) : Nibble := f.arg.extractLsb' 0 4

/-- The byte operand, all of `ARG` (R71). -/
def byteOperand (f : Fields) : Byte := f.arg

/-- `IN[k]` (10_state.md rule R28). -/
def inByte (s : State) (k : Nat) : Byte := Memory.read s.mem (Config.inBase + k)

/-- `OUT[k]` (10_state.md rule R29). -/
def outByte (s : State) (k : Nat) : Byte := Memory.read s.mem (Config.outBase + k)

/-- `IN[0..n-1]`, the operand of a buffer command (10_state.md rule R28). -/
def inBytes (s : State) (n : Nat) : List Byte := (List.range n).map (inByte s)

end Sys2Proof.Machine
end

