-- ==== Sys2Proof/Machine/Flags.lean ====
section
/-! DEFINITION. The flags: the codes of `STATUS.ERR` (60_exceptions.md rule R170), the flag `LOOKUP` computes
(41_codebook.md rule R121), and `STATUS` as a word (10_state.md rule R24). `STATUS.DEC_ERR` is computed by the Decoder
(44_decode.md rule R154), in Decoder.lean. -/

namespace Sys2Proof.Machine

/-- The value `STATUS.ERR` holds for an outcome (R170). -/
def ErrCode.code : ErrCode → BitVec 4
  | .ok => 0#4
  | .length => 1#4
  | .opcode => 2#4
  | .reserved => 3#4

/-- `STATUS.AMBIG` after `LOOKUP` returned the ReverseMap entry `r` (R121). -/
def ambigFlag (r : BitVec 5) : Bool := decide (r.toNat = Config.sentinel)

/-- `STATUS` as a host reads it (R24, 20_memory.md rule R52). -/
def statusWord (s : State) : Word :=
  ((BitVec.ofBool s.ambig).setWidth 32 <<< 5) ||| ((BitVec.ofBool s.decErr).setWidth 32 <<< 4) ||| s.err.setWidth 32

end Sys2Proof.Machine
end

