-- ==== Sys2Proof/Machine/Ops.lean ====
section
/-! DEFINITION. The named operations every command is written over: writing a field (00_scope.md rule R12), writing
`OUT` (10_state.md rule R29), failing (60_exceptions.md rule R172) and completing (40_command.md rule R100). Failing is
the whole of what taking an exception is on this hardware, and there is no return from it (R175, R176). -/

namespace Sys2Proof.Machine

/-- `STATUS.ERR <- v`. -/
def State.setErr (s : State) (v : BitVec 4) : State := { s with err := v }
/-- `STATUS.DEC_ERR <- v`. -/
def State.setDecErr (s : State) (v : Bool) : State := { s with decErr := v }
/-- `STATUS.AMBIG <- v`. -/
def State.setAmbig (s : State) (v : Bool) : State := { s with ambig := v }
/-- `RESULT.VALUE <- v`. -/
def State.setResult (s : State) (v : Byte) : State := { s with result := v }
/-- `OUT_LEN.LEN <- v`. -/
def State.setOutLen (s : State) (v : Byte) : State := { s with outLen := v }
/-- The bytes of `IN` and `OUT` replaced. -/
def State.setMem (s : State) (m : Memory) : State := { s with mem := m }
/-- The host events still to serve. -/
def State.setPending (s : State) (es : List Event) : State := { s with pending := es }
/-- The answer the host gets. -/
def State.setResponse (s : State) (r : Response) : State := { s with response := r }

/-- `OUT[0..len(bs)-1] <- bs`; the bytes beyond keep their values (R29). -/
def State.writeOut (s : State) (bs : List Byte) : State := s.setMem (Memory.writeBytes s.mem Config.outBase bs)

/-- `fail(c)`: `STATUS.ERR <- c` and nothing else (R172). -/
def fail (c : ErrCode) (s : State) : State := s.setErr c.code

/-- A command that passed or failed its checks: on success it is performed and `STATUS.ERR <- 0`, else it fails with
its code and no part of it is performed (R100, R101, R172). -/
def runChecked (check : ErrCode) (perform : State → State) (s : State) : Host.Outcome State Fault Refusal :=
  match check with
  | .ok => .next ((perform s).setErr ErrCode.ok.code)
  | .length => .next (fail .length s)
  | .opcode => .next (fail .opcode s)
  | .reserved => .next (fail .reserved s)

end Sys2Proof.Machine
end

