-- ==== Sys2Proof/Machine/Tables.lean ====
section
/-! DEFINITION. The Codebook and the ReverseMap, constants of the QCU (10_state.md rules R30 and R31): their contents as
41_codebook.md rules R114 and R117 list them, and the builders of rules R112 and R115 that fix them. No command runs a
builder (92_eei_decisions.md D13). -/

namespace Sys2Proof.Machine

/-- The Codebook's contents (R114). -/
def codebook : List Byte :=
  [0x03#8, 0x0C#8, 0x16#8, 0x19#8, 0x25#8, 0x30#8, 0x3F#8, 0x4A#8,
   0x55#8, 0x66#8, 0x69#8, 0x73#8, 0x7C#8, 0x8F#8, 0xAA#8, 0xC0#8]

/-- `CB[n]`, the codeword of nibble `n` (R118). -/
def codeword (n : Nibble) : Byte := codebook.getD n.toNat 0#8

/-- The ReverseMap's contents, 16 entries a row (R117). -/
def reverseMapRows : List (List Nat) :=
  [[16,  0,  0,  0,  1,  4,  2,  0,  1,  3,  7,  0,  1,  1,  1, 13],
   [ 5,  3,  2,  0,  2,  8,  2,  2,  3,  3, 16,  3,  1,  3,  2,  6],
   [ 5,  4, 16,  0,  4,  4,  9,  4, 16, 10, 14, 16,  1,  4, 16,  6],
   [ 5,  5,  5, 11,  5,  4,  2,  6,  5,  3, 16,  6, 12,  6,  6,  6]] ++
  [[15, 16,  7,  0, 16,  8,  9, 16,  7, 10,  7,  7,  1, 16,  7, 16],
   [16,  8, 16, 11,  8,  8,  2,  8, 16,  3,  7, 16, 12,  8, 16, 16],
   [16, 10,  9, 11,  9,  4,  9,  9, 10, 10,  7, 10, 12, 10,  9, 16],
   [ 5, 11, 11, 11, 12,  8,  9, 11, 12, 10, 16, 11, 12, 12, 12,  6]] ++
  [[15, 16, 16,  0, 16, 16, 16, 13, 16, 16, 14, 13,  1, 13, 13, 13],
   [16,  3,  2,  0,  2,  8,  2, 16,  3,  3, 14, 16,  1, 16, 16, 13],
   [16,  4, 14, 16,  4,  4, 16, 16, 14, 16, 14, 14, 16, 16, 14, 13],
   [ 5,  5, 16, 11,  5,  4,  2,  6, 16,  3, 14, 16, 12,  6, 16,  6]] ++
  [[15, 15, 15, 16, 15, 16, 16, 13, 15, 16,  7, 16, 16, 13, 16, 13],
   [15, 16, 15, 11, 16,  8,  2,  8, 15,  3,  7, 16, 12,  8, 16, 13],
   [15, 16, 16, 11, 16,  4,  9,  9, 16, 10, 14, 16, 12, 10, 16, 13],
   [16, 11, 11, 11, 12,  8,  9, 11, 12, 10, 14, 11, 12, 12, 12,  6]]

/-- `RM[v]`, a value in 0 to 16 held in 5 bits (R31, R117). -/
def reverseMap (v : Byte) : BitVec 5 :=
  BitVec.ofNat 5 ((reverseMapRows.getD (v.toNat / 16) []).getD (v.toNat % 16) Config.sentinel)

/-- What the Decoder reads from the ReverseMap: the two-variant result rule R119 allows a model to use. -/
inductive Symbol where
  /-- A definite nibble. -/
  | definite (n : Nibble)
  /-- Equally close to two or more codewords. -/
  | ambiguous
deriving DecidableEq, Repr

/-- A ReverseMap entry as a symbol: below 16 definite, 16 ambiguous (R119). -/
def symbolOf (r : BitVec 5) : Symbol := if r.toNat < Config.sentinel then .definite (r.setWidth 4) else .ambiguous

/-! ### The builders -/

/-- The CodebookBuilder's only failure; build-time only, with no run-time counterpart (R113). -/
inductive BuildError where
  /-- ConfigurationError: fewer than 16 values qualify. -/
  | configurationError
deriving DecidableEq, Repr

/-- One candidate of the scan of rule R112. -/
def considerCandidate (acc : List Byte) (c : Byte) : List Byte :=
  if acc.length = Config.cbSize then acc
  else if popcount c < Config.wLo ∨ popcount c > Config.wHi then acc
  else if acc.all (fun a => decide (Config.dMin ≤ hd c a)) then acc ++ [c]
  else acc

/-- The accepted values in acceptance order, seeds first (R112, R114). -/
def acceptedCodewords : List Byte :=
  (List.range 256).foldl (fun acc c => considerCandidate acc (BitVec.ofNat 8 c)) [Config.seed0, Config.seed1]

/-- A byte put before the first greater one. -/
def insertAscending (b : Byte) : List Byte → List Byte
  | [] => [b]
  | c :: cs => if b.toNat ≤ c.toNat then b :: c :: cs else c :: insertAscending b cs

/-- `sort_ascending` of rule R112. -/
def sortAscending : List Byte → List Byte
  | [] => []
  | b :: bs => insertAscending b (sortAscending bs)

/-- `build_codebook()` (R112, R113). -/
def buildCodebook : Except BuildError (List Byte) :=
  if acceptedCodewords.length < Config.cbSize then .error .configurationError
  else .ok (sortAscending acceptedCodewords)

/-- The least distance of a byte to a codeword of a codebook (R115). -/
def leastDistance (cb : List Byte) (v : Byte) : Nat := (cb.map (hd v)).foldl min Config.cwBits

/-- The indices of the codewords at the least distance (R115). -/
def nearestIndices (cb : List Byte) (v : Byte) : List Nat :=
  (List.range cb.length).filter fun n => hd v (byteAt cb n) == leastDistance cb v

/-- Entry `v` of `build_reverse_map(CB)` (R115). -/
def buildReverseMapEntry (cb : List Byte) (v : Byte) : Nat :=
  match nearestIndices cb v with
  | [n] => n
  | _ => Config.sentinel

end Sys2Proof.Machine
end

