-- ==== Sys2Proof/Machine/Codebook.lean ====
section
/-! DEFINITION. `ENCNIB` and `LOOKUP` (41_codebook.md rules R120 and R121). -/

namespace Sys2Proof.Machine

/-- `ENCNIB n` (R120): `RESULT.VALUE <- CB[n]`. -/
def execEncnib (f : Fields) (s : State) : Host.Outcome State Fault Refusal :=
  runChecked (checkNibbleOperand f) (fun t => t.setResult (codeword (nibbleOperand f))) s

/-- What a successful `LOOKUP` writes for the ReverseMap entry `r` (R121). -/
def deliverEntry (r : BitVec 5) (s : State) : State := (s.setResult (r.setWidth 8)).setAmbig (ambigFlag r)

/-- `LOOKUP b` (R121): `RESULT.VALUE <- RM[b]`, `STATUS.AMBIG <- (RM[b] = 16)`. -/
def execLookup (f : Fields) (s : State) : Host.Outcome State Fault Refusal :=
  runChecked (checkByteOperand f) (deliverEntry (reverseMap (byteOperand f))) s

end Sys2Proof.Machine
end

