-- ==== Sys2Proof/Machine/Command.lean ====
section
/-! DEFINITION. `NOP` (40_command.md rule R105) and the reserved opcodes (30_encoding.md rule R74). -/

namespace Sys2Proof.Machine

/-- `NOP` (R105): `STATUS.ERR <- 0` and nothing else. -/
def execNop (f : Fields) (s : State) : Host.Outcome State Fault Refusal := runChecked (checkNoOperand f) (fun t => t) s

/-- The reserved opcode 0x7: fails with `ERR_OPCODE` whatever its other bits (R74). -/
def execReserved7 (_f : Fields) (s : State) : Host.Outcome State Fault Refusal := runChecked .opcode (fun t => t) s

/-- The reserved opcodes 0x8 to 0xF: fail with `ERR_OPCODE` whatever their other bits (R74). -/
def execReservedHigh (_low : BitVec 3) (_f : Fields) (s : State) : Host.Outcome State Fault Refusal :=
  runChecked .opcode (fun t => t) s

end Sys2Proof.Machine
end

