-- ==== Sys2Proof/Machine/Transposer.lean ====
section
/-! DEFINITION. The bit transposition and its inverse (42_transpose.md rules R130 and R131), `XFWD` and `XREV` (rules
R133 and R134). -/

namespace Sys2Proof.Machine

/-- `T` (R130). Rule R130 sends bit `b` of byte `i` to bit `i mod 8` of byte `6*b + i div 8`; read from the output, bit
`k` of byte `j` comes from bit `j div 6` of byte `8*(j mod 6) + k`. -/
def transpose (x : List Byte) : List Byte :=
  (List.range Config.msgLen).map fun j =>
    byteOfBits fun k => (byteAt x (8 * (j % Config.chunk) + k)).getLsbD (j / Config.chunk)

/-- The inverse of `T` (R131). Rule R131 sends bit `k` of byte `j` to bit `j div 6` of byte `8*(j mod 6) + k`; read from
the output, bit `b` of byte `i` comes from bit `i mod 8` of byte `6*b + i div 8`. -/
def untranspose (y : List Byte) : List Byte :=
  (List.range Config.msgLen).map fun i =>
    byteOfBits fun b => (byteAt y (Config.chunk * b + i / 8)).getLsbD (i % 8)

/-- `XFWD` (R133): `OUT[0..47] <- T(IN[0..47])`, `OUT_LEN.LEN <- 48`. -/
def execXfwd (f : Fields) (s : State) : Host.Outcome State Fault Refusal :=
  runChecked (checkBufferOperand 48#8 f) (fun t => (t.writeOut (transpose (inBytes t Config.msgLen))).setOutLen 48#8) s

/-- `XREV` (R134): `OUT[0..47] <- Tinv(IN[0..47])`, `OUT_LEN.LEN <- 48`. -/
def execXrev (f : Fields) (s : State) : Host.Outcome State Fault Refusal :=
  runChecked (checkBufferOperand 48#8 f) (fun t => (t.writeOut (untranspose (inBytes t Config.msgLen))).setOutLen 48#8) s

end Sys2Proof.Machine
end

