-- ==== Sys2Proof/Machine/Decoder.lean ====
section
/-! DEFINITION. The Decoder (44_decode.md rules R150 to R154) and `DECODE` (rule R155). -/

namespace Sys2Proof.Machine

/-- Stream `n` of a block: its chunks are those of number `4*q + n` (R150); 0 copy1-high, 1 copy2-high, 2 copy1-low,
3 copy2-low. -/
def splitStream (e : List Byte) (n : Nat) : List Byte :=
  (List.range Config.msgLen).map fun j =>
    byteAt e (Config.chunk * (Config.streams * (j / Config.chunk) + n) + j % Config.chunk)

/-- The symbols of stream `n`, one per byte position: reverse-transposed (R151), then looked up (R152). -/
def streamSymbols (e : List Byte) (n : Nat) : List Symbol :=
  (untranspose (splitStream e n)).map fun v => symbolOf (reverseMap v)

/-- `resolve(a, b)`: the nibble of a half and whether it is unresolved (R153). -/
def resolve : Symbol → Symbol → Nibble × Bool
  | .definite a, .definite b => if a = b then (a, false) else (0#4, true)
  | .definite a, .ambiguous => (a, false)
  | .ambiguous, .definite b => (b, false)
  | .ambiguous, .ambiguous => (0#4, true)

/-- One output byte and whether one of its halves is unresolved (R154). -/
def decodePosition (h1 h2 l1 l2 : Symbol) : Byte × Bool :=
  (combineNibbles (resolve h1 h2).1 (resolve l1 l2).1, (resolve h1 h2).2 || (resolve l1 l2).2)

/-- Symbol `i` of a stream. The Decoder only asks for symbols a stream has. -/
def symbolAt (x : List Symbol) (i : Nat) : Symbol := x.getD i .ambiguous

/-- The 48 output bytes of a block, each with its unresolved bit (R150 to R154). -/
def decodePositions (e : List Byte) : List (Byte × Bool) :=
  (List.range Config.msgLen).map fun i =>
    decodePosition (symbolAt (streamSymbols e 0) i) (symbolAt (streamSymbols e 1) i)
      (symbolAt (streamSymbols e 2) i) (symbolAt (streamSymbols e 3) i)

/-- The message the Decoder returns (R154). -/
def decodedMessage (e : List Byte) : List Byte := (decodePositions e).map fun p => p.1

/-- `hasError`: whether any half of any byte is unresolved (R154, R156). -/
def hasError (e : List Byte) : Bool := (decodePositions e).any fun p => p.2

/-- `DECODE` (R155): `OUT[0..47] <- M`, `STATUS.DEC_ERR <- hasError`, `OUT_LEN.LEN <- 48`. -/
def execDecode (f : Fields) (s : State) : Host.Outcome State Fault Refusal :=
  runChecked (checkBufferOperand 192#8 f)
    (fun t => ((t.writeOut (decodedMessage (inBytes t Config.blkLen))).setDecErr
      (hasError (inBytes t Config.blkLen))).setOutLen 48#8) s

end Sys2Proof.Machine
end

