-- ==== Sys2Proof/Machine/Encoder.lean ====
section
/-! DEFINITION. The Encoder (43_encode.md rules R140 to R142) and `ENCODE` (rule R144). -/

namespace Sys2Proof.Machine

/-- The codeword stream of the high nibbles (R140). -/
def highStream (m : List Byte) : List Byte := m.map fun b => codeword (hiNibble b)

/-- The codeword stream of the low nibbles (R140). -/
def lowStream (m : List Byte) : List Byte := m.map fun b => codeword (loNibble b)

/-- The block of two transposed streams (R142): group `p div 24` holds the 6-byte group of `H` twice, then that of `L`
twice (90_conflicts.md C1). -/
def layout (h l : List Byte) : List Byte :=
  (List.range Config.blkLen).map fun p =>
    byteAt (if p % 24 < 12 then h else l) (Config.chunk * (p / 24) + p % Config.chunk)

/-- The 192-byte block of a 48-byte message (R140 to R142). -/
def encodeBlock (m : List Byte) : List Byte := layout (transpose (highStream m)) (transpose (lowStream m))

/-- `ENCODE` (R144): `OUT[0..191] <- E`, `OUT_LEN.LEN <- 192`. -/
def execEncode (f : Fields) (s : State) : Host.Outcome State Fault Refusal :=
  runChecked (checkBufferOperand 48#8 f)
    (fun t => (t.writeOut (encodeBlock (inBytes t Config.msgLen))).setOutLen 192#8) s

end Sys2Proof.Machine
end

