-- ==== Sys2Proof/Machine/Dispatch.lean ====
section
/-! DEFINITION. The meaning of every command: performing what a command word stands for (40_command.md rule R100). -/

namespace Sys2Proof.Machine

def exec (i : Instr) (s : State) : Host.Outcome State Fault Refusal :=
  match i with
  | .nop f => Sys2Proof.Machine.execNop f s
  | .encnib f => Sys2Proof.Machine.execEncnib f s
  | .lookup f => Sys2Proof.Machine.execLookup f s
  | .xfwd f => Sys2Proof.Machine.execXfwd f s
  | .xrev f => Sys2Proof.Machine.execXrev f s
  | .encode f => Sys2Proof.Machine.execEncode f s
  | .decode f => Sys2Proof.Machine.execDecode f s
  | .reserved7 f => Sys2Proof.Machine.execReserved7 f s
  | .reservedHigh low f => Sys2Proof.Machine.execReservedHigh low f s

end Sys2Proof.Machine
end

