-- ==== Sys2Proof/Machine/Window.lean ====
section
/-! DEFINITION. The register window (20_memory.md rules R50 to R56): its map, which accesses are admitted, and what a
read and a write of an admitted word do. -/

namespace Sys2Proof.Machine

/-- What an offset of the window names (R51). -/
inductive Region where
  | id
  | cmd
  | status
  | result
  | outLen
  | param
  | inBuf
  | outBuf
  | codebookWindow
  | reverseMapWindow
  | reserved
deriving DecidableEq, Repr

/-- One row of the address map. -/
structure MapRow where
  /-- First offset of the range. -/
  first : Nat
  /-- Last offset of the range. -/
  last : Nat
  /-- What the range holds. -/
  region : Region
deriving DecidableEq, Repr

/-- The address map (R51), row by row. -/
def windowMap : List MapRow :=
  [⟨0x000, 0x003, .id⟩, ⟨0x004, 0x007, .cmd⟩, ⟨0x008, 0x00B, .status⟩, ⟨0x00C, 0x00F, .result⟩,
   ⟨0x010, 0x013, .outLen⟩, ⟨0x014, 0x017, .param⟩, ⟨0x018, 0x0FF, .reserved⟩, ⟨0x100, 0x1BF, .inBuf⟩,
   ⟨0x1C0, 0x1FF, .reserved⟩, ⟨0x200, 0x2BF, .outBuf⟩, ⟨0x2C0, 0x2FF, .reserved⟩, ⟨0x300, 0x30F, .codebookWindow⟩,
   ⟨0x310, 0x3FF, .reserved⟩, ⟨0x400, 0x4FF, .reverseMapWindow⟩, ⟨0x500, 0xFFF, .reserved⟩]

/-- The region of the first row of a map that holds an offset. -/
def regionIn : List MapRow → Nat → Region
  | [], _ => .reserved
  | r :: rows, off => if r.first ≤ off ∧ off ≤ r.last then r.region else regionIn rows off

/-- What an offset of the window names (R51). -/
def regionOf (off : Nat) : Region := regionIn windowMap off

/-- Whether an access is admitted: 32 bits wide, at a multiple of 4, inside the window (R54). -/
def admitted (a : Access) : Bool :=
  decide (a.width = 32) && decide (a.off % 4 = 0) && decide (a.off < Config.windowSize)

/-- `MemRead(off, 4)` of an admitted word (R52). Reserved offsets and `CMD` read 0 (R56). -/
def readWindow (s : State) (off : Nat) : Word :=
  match regionOf off with
  | .id => Config.idValue
  | .cmd => 0#32
  | .status => statusWord s
  | .result => s.result.setWidth 32
  | .outLen => s.outLen.setWidth 32
  | .param => Config.paramValue
  | .inBuf => wordAt (inByte s) ((off - Config.inBase) / 4)
  | .outBuf => wordAt (outByte s) ((off - Config.outBase) / 4)
  | .codebookWindow => wordAt (byteAt codebook) ((off - Config.cbwBase) / 4)
  | .reverseMapWindow => wordAt (fun v => (reverseMap (BitVec.ofNat 8 v)).setWidth 8) ((off - Config.rmwBase) / 4)
  | .reserved => 0#32

/-- `MemWrite(off, 4, v)` of an admitted word (R53). A write to anything but `CMD` and `IN` is ignored (R56). -/
def writeWindow (off : Nat) (v : Word) (s : State) : Host.Outcome State Fault Refusal :=
  match regionOf off with
  | .cmd => exec (decode v) s
  | .inBuf => .next (s.setMem (Memory.writeWord s.mem (Config.inBase + 4 * ((off - Config.inBase) / 4)) v))
  | .id => .next s
  | .status => .next s
  | .result => .next s
  | .outLen => .next s
  | .param => .next s
  | .outBuf => .next s
  | .codebookWindow => .next s
  | .reverseMapWindow => .next s
  | .reserved => .next s

end Sys2Proof.Machine
end

