-- ==== Sys2Proof/Machine/HostPort.lean ====
section
/-! DEFINITION. What the outside world can do to the QCU, one event at a time: host accesses in the order received
(20_memory.md rule R58) and the reset input (70_reset_and_hazards.md rule R190). -/

namespace Sys2Proof.Machine

/-- One host access (00_scope.md rule R8): served when it is admitted, else answered with a bus error and nothing
changed (20_memory.md rules R54 and R173). Master, host mode and exclusivity are not looked at (R60, R63, R179). -/
def serveAccess (a : Access) (s : State) : Host.Outcome State Fault Refusal :=
  if admitted a then
    match a.kind with
    | .read => .next (s.setResponse (.readData (readWindow s a.off)))
    | .fetch => .next (s.setResponse (.readData (readWindow s a.off)))
    | .write v => writeWindow a.off v (s.setResponse .writeDone)
  else .next (s.setResponse .busError)

/-- The reset input (R190): every field of the record takes its reset value, whatever it held; the host's later events
are still to come. -/
def takeReset (s : State) : State := State.reset.setPending s.pending

/-- One event of the outside world. A command cut short by reset leaves nothing behind (R190). -/
def serve (e : Event) (s : State) : Host.Outcome State Fault Refusal :=
  match e with
  | .access a => serveAccess a s
  | .reset => .next (takeReset s)
  | .resetDuringCommand _ reply => .next ((takeReset s).setResponse reply)

/-- The oldest pending event served; with none pending nothing happens (log entry 6). -/
def serveNext (s : State) : Host.Outcome State Fault Refusal :=
  match s.pending with
  | [] => .next s
  | e :: rest => serve e (s.setPending rest)

/-- The events of a list served in order. -/
def serveAll : List Event → State → Host.Outcome State Fault Refusal
  | [], s => .next s
  | e :: es, s =>
    match serve e s with
    | .next t => serveAll es t
    | .fault r => .fault r
    | .refused r => .refused r

/-- An aligned 32-bit access of master 0. -/
def wordAccess (kind : AccessKind) (off : Nat) : Access :=
  { kind := kind, off := off, width := 32, master := 0, hostMode := 0, exclusive := false }

/-- The write of a command word to `CMD` (10_state.md rule R23). -/
def commandWrite (w : Word) : Event := .access (wordAccess (.write w) 0x004)

/-- An access of the host's address space as the QCU receives it: its offset from `QCU_BASE`, when it falls in the
window (00_scope.md rule R7, R50). Another address is not the QCU's. -/
def routeAccess (addr : Nat) (a : Access) : Option Access :=
  if Config.qcuBase ≤ addr ∧ addr < Config.qcuBase + Config.windowSize then
    some { a with off := addr - Config.qcuBase }
  else none

end Sys2Proof.Machine
end

