-- ==== Sys2Proof/Machine/Step.lean ====
section
/-! DEFINITION. One step of the QCU: one event of the outside world (00_scope.md rule R8). -/

namespace Sys2Proof.Machine

/-- One step (R8, R58). -/
def step (s : State) : Host.Outcome State Fault Refusal := serveNext s

/-- `s` with a command word about to be written to `CMD`, so that the next step runs it (log entry 7). -/
def State.withFetchWord (s : State) (nbits w : Nat) : State :=
  s.setPending (commandWrite (BitVec.ofNat 32 (w % 2 ^ nbits)) :: s.pending)

end Sys2Proof.Machine
end

