-- ==== Sys2Proof/Machine/Assembler.lean ====
section
/-! DEFINITION. The command assembler of 30_encoding.md rule R77: a line of text to the word it stands for. Text is a
list of characters; mnemonics are case-insensitive, numbers decimal or hexadecimal with the 0x mark. -/

namespace Sys2Proof.Machine

/-- A command line of rule R77. A buffer command's length may be left out. -/
inductive AsmLine where
  /-- `NOP`. -/
  | nop
  /-- `ENCNIB <n>`. -/
  | encnib (n : Nat)
  /-- `LOOKUP <b>`. -/
  | lookup (b : Nat)
  /-- `XFWD [len=<L>]`. -/
  | xfwd (len : Option Nat)
  /-- `XREV [len=<L>]`. -/
  | xrev (len : Option Nat)
  /-- `ENCODE [len=<L>]`. -/
  | encode (len : Option Nat)
  /-- `DECODE [len=<L>]`. -/
  | decode (len : Option Nat)
  /-- `.cmd <w>`, any 32-bit word as is. -/
  | cmd (w : Nat)
deriving DecidableEq, Repr

/-- The word `op | L << 24` for a length in 0 to 255 (R77). -/
def asmLength (op len : Nat) : Option Word := if len ≤ 255 then some (BitVec.ofNat 32 (op + len * 2 ^ 24)) else none

/-- The word a line stands for; an operand out of range is rejected (R77). -/
def assemble : AsmLine → Option Word
  | .nop => some 0x00000000#32
  | .encnib n => if n ≤ 15 then some (BitVec.ofNat 32 (1 + n * 2 ^ 8)) else none
  | .lookup b => if b ≤ 255 then some (BitVec.ofNat 32 (2 + b * 2 ^ 8)) else none
  | .xfwd len => asmLength 3 (len.getD 48)
  | .xrev len => asmLength 4 (len.getD 48)
  | .encode len => asmLength 5 (len.getD 48)
  | .decode len => asmLength 6 (len.getD 192)
  | .cmd w => if w < 2 ^ 32 then some (BitVec.ofNat 32 w) else none

/-- The value of a digit character, hexadecimal ones included. -/
def digitValue (c : Char) : Option Nat :=
  if 48 ≤ c.toNat ∧ c.toNat ≤ 57 then some (c.toNat - 48)
  else if 97 ≤ c.toNat ∧ c.toNat ≤ 102 then some (c.toNat - 87)
  else if 65 ≤ c.toNat ∧ c.toNat ≤ 70 then some (c.toNat - 55)
  else none

/-- Digits read in a base, onto a value already read. -/
def readDigits (base : Nat) : Nat → List Char → Option Nat
  | acc, [] => some acc
  | acc, c :: cs =>
    match digitValue c with
    | some d => if d < base then readDigits base (acc * base + d) cs else none
    | none => none

/-- A number: decimal, or hexadecimal with the 0x mark (R77). -/
def readNumber : List Char → Option Nat
  | [] => none
  | '0' :: 'x' :: [] => none
  | '0' :: 'x' :: c :: cs => readDigits 16 0 (c :: cs)
  | c :: cs => readDigits 10 0 (c :: cs)

/-- The words of a line, split at spaces; empty ones stay. -/
def splitSpaces : List Char → List (List Char)
  | [] => [[]]
  | c :: cs =>
    match splitSpaces cs with
    | [] => [[c]]
    | w :: ws => if c = ' ' then [] :: w :: ws else (c :: w) :: ws

/-- The optional `len=<L>` operand. -/
def readLength : List (List Char) → Option (Option Nat)
  | [] => some none
  | ['l' :: 'e' :: 'n' :: '=' :: ds] => (readNumber ds).map some
  | _ => none

/-- A line parsed; `none` where it is no line of rule R77. -/
def parseLine (line : List Char) : Option AsmLine :=
  match (splitSpaces line).filter (fun w => !w.isEmpty) with
  | [] => none
  | m :: ops =>
    match m.map Char.toLower, ops with
    | ['n', 'o', 'p'], [] => some .nop
    | ['e', 'n', 'c', 'n', 'i', 'b'], [n] => (readNumber n).map .encnib
    | ['l', 'o', 'o', 'k', 'u', 'p'], [b] => (readNumber b).map .lookup
    | ['x', 'f', 'w', 'd'], ops => (readLength ops).map .xfwd
    | ['x', 'r', 'e', 'v'], ops => (readLength ops).map .xrev
    | ['e', 'n', 'c', 'o', 'd', 'e'], ops => (readLength ops).map .encode
    | ['d', 'e', 'c', 'o', 'd', 'e'], ops => (readLength ops).map .decode
    | ['.', 'c', 'm', 'd'], [w] => (readNumber w).map .cmd
    | _, _ => none

/-- The word of a line of text (R77). -/
def assembleText (line : List Char) : Option Word := (parseLine line).bind assemble

end Sys2Proof.Machine
end

