-- ==== Sys2Proof/Machine/HostProgram.lean ====
section
/-! DEFINITION. The host-program notation of 30_encoding.md rule R78: its lines, their expansion into accesses, and
running a program, each access complete before the next starts (20_memory.md rule R58). -/

namespace Sys2Proof.Machine

/-- A line of a host program (R78). -/
inductive HostLine where
  /-- `WR <off>, <v>`. -/
  | wr (off : Nat) (v : Word)
  /-- `RD <off> -> <v>`: a read expected to return `v`. -/
  | rd (off : Nat) (v : Word)
  /-- `ISSUE <command>`. -/
  | issue (c : AsmLine)
  /-- `LOADIN <k>, <w0> <w1> ...`. -/
  | loadIn (k : Nat) (ws : List Word)
  /-- `READOUT <k>, <n> -> <w0> <w1> ...`: `n` words expected. -/
  | readOut (k : Nat) (ws : List Word)
deriving DecidableEq, Repr

/-- One access of an expanded program: the access, and the data a read must return. -/
structure HostAct where
  /-- The access made. -/
  access : Access
  /-- What a read is expected to return. -/
  expected : Option Word
deriving DecidableEq, Repr

/-- Words written to consecutive word offsets. -/
def writeActs : Nat → List Word → List HostAct
  | _, [] => []
  | off, w :: ws => { access := wordAccess (.write w) off, expected := none } :: writeActs (off + 4) ws

/-- Reads of consecutive word offsets with the words they must return. -/
def readActs : Nat → List Word → List HostAct
  | _, [] => []
  | off, w :: ws => { access := wordAccess .read off, expected := some w } :: readActs (off + 4) ws

/-- The accesses a line stands for (R78); none when its command does not assemble (R77). -/
def expandLine : HostLine → Option (List HostAct)
  | .wr off v => some (writeActs off [v])
  | .rd off v => some (readActs off [v])
  | .issue c => (assemble c).map fun w => writeActs 0x004 [w]
  | .loadIn k ws => some (writeActs (Config.inBase + 4 * k) ws)
  | .readOut k ws => some (readActs (Config.outBase + 4 * k) ws)

/-- The accesses made in order; `none` when a read does not return what it is expected to. -/
def runActs : List HostAct → State → Option State
  | [], s => some s
  | h :: hs, s =>
    match serveAccess h.access s with
    | .next t =>
      match h.expected with
      | none => runActs hs t
      | some v => if t.response = .readData v then runActs hs t else none
    | .fault _ => none
    | .refused _ => none

/-- A host program run from a state. -/
def runProgram : List HostLine → State → Option State
  | [], s => some s
  | l :: ls, s => (expandLine l).bind fun acts => (runActs acts s).bind (runProgram ls)

end Sys2Proof.Machine
end

