-- ==== Sys2Proof/Safety.lean ====
section
/-! DEFINITION. What the QCU's state can hold, in the terms the statements use. -/

namespace Sys2Proof.Machine

/-- What holds of the state at reset and after every event: memory in canonical form, `STATUS.ERR` one of the produced
codes (10_state.md rule R24), `OUT_LEN` 0, 48 or 192 (rule R26), `RESULT` a codeword or a ReverseMap entry (rule R25). -/
abbrev Inv (s : State) : Prop :=
  Memory.wf s.mem ∧ s.err.toNat ≤ 3 ∧ (s.outLen = 0#8 ∨ s.outLen = 48#8 ∨ s.outLen = 192#8) ∧
    (s.result ∈ codebook ∨ s.result.toNat ≤ Config.sentinel)

/-- The state an outcome goes on in. -/
def nextOf : Host.Outcome State Fault Refusal → Option State
  | .next t => some t
  | .fault _ => none
  | .refused _ => none

/-- The event asserts reset (70_reset_and_hazards.md rule R190). -/
def assertsReset : Event → Bool
  | .access _ => false
  | .reset => true
  | .resetDuringCommand _ _ => true

/-- The word an event writes at a window offset in `first` to `last`, when it is an admitted write there. -/
def wordWritten (first last : Nat) : Event → Option Word
  | .access a =>
    match a.kind with
    | .write v => if admitted a = true ∧ first ≤ a.off ∧ a.off ≤ last then some v else none
    | .read => none
    | .fetch => none
  | .reset => none
  | .resetDuringCommand _ _ => none

/-- The command word an event writes to `CMD` (10_state.md rule R23). -/
def commandOfEvent (e : Event) : Option Word := wordWritten 0x004 0x007 e

/-- A run of events is safe when every event is served and the state reached holds what it should. -/
def safeRun (es : List Event) (s : State) : Prop := ∃ t, serveAll es s = .next t ∧ Inv t

end Sys2Proof.Machine
end

