-- ==== Sys2Proof/Certificates/Slice0/Obligations.lean ====
section
/-! DEFINITION. The statements for the provers, from the numbered rules of spec/. -/

open Sys2Proof Sys2Proof.Machine

/-! ### Encoding -/

/-- Decoding the word of a command gives the command back, with every field at every value (R70 to R73). -/
def Obligations.DecodeOfEncodeIsIdentity : Prop := ∀ i : Instr, decode (encode i) = i

/-- Every 32-bit word is the word of exactly the command it decodes to (R73, R76). -/
def Obligations.EncodeOfDecodeIsIdentity : Prop := ∀ w : Word, encode (decode w) = w

/-- A word decodes to a well-formed command exactly when its fixed bits are those of a row of the opcode table (R72). -/
def Obligations.WellFormedWordsAreTableRows : Prop :=
  ∀ w : Word, (decode w).wf = true ↔
    w = 0#32 ∨
    (w.extractLsb' 0 8 = 1#8 ∧ w.extractLsb' 12 20 = 0#20) ∨
    (w.extractLsb' 0 8 = 2#8 ∧ w.extractLsb' 16 16 = 0#16) ∨
    w = 0x30000003#32 ∨ w = 0x30000004#32 ∨ w = 0x30000005#32 ∨ w = 0xC0000006#32 ∨
    w.extractLsb' 0 4 = 7#4 ∨ w.extractLsb' 3 1 = 1#1

/-- The canonical words of R72, and one word of each reserved row, decode to their commands. -/
def Obligations.CanonicalWordsDecode : Prop :=
  decode 0x00000000#32 = .nop { rsv0 := 0#4, arg := 0#8, rsv1 := 0#8, len := 0#8 } ∧
  decode 0x00000501#32 = .encnib { rsv0 := 0#4, arg := 5#8, rsv1 := 0#8, len := 0#8 } ∧
  decode 0x0000AB02#32 = .lookup { rsv0 := 0#4, arg := 0xAB#8, rsv1 := 0#8, len := 0#8 } ∧
  decode 0x30000003#32 = .xfwd { rsv0 := 0#4, arg := 0#8, rsv1 := 0#8, len := 48#8 } ∧
  decode 0x30000004#32 = .xrev { rsv0 := 0#4, arg := 0#8, rsv1 := 0#8, len := 48#8 } ∧
  decode 0x30000005#32 = .encode { rsv0 := 0#4, arg := 0#8, rsv1 := 0#8, len := 48#8 } ∧
  decode 0xC0000006#32 = .decode { rsv0 := 0#4, arg := 0#8, rsv1 := 0#8, len := 192#8 } ∧
  decode 0x12345687#32 = .reserved7 { rsv0 := 8#4, arg := 0x56#8, rsv1 := 0x34#8, len := 0x12#8 } ∧
  decode 0xFFFFFFF8#32 = .reservedHigh 0#3 { rsv0 := 0xF#4, arg := 0xFF#8, rsv1 := 0xFF#8, len := 0xFF#8 }

/-- The assembler of R77 spells each command's word, takes the default lengths, and rejects operands out of range. -/
def Obligations.AssemblerSpellsCommandWords : Prop :=
  assemble .nop = some 0#32 ∧
  (∀ n ≤ 15, assemble (.encnib n) =
    some (encode (.encnib { rsv0 := 0#4, arg := BitVec.ofNat 8 n, rsv1 := 0#8, len := 0#8 }))) ∧
  (∀ b ≤ 255, assemble (.lookup b) =
    some (encode (.lookup { rsv0 := 0#4, arg := BitVec.ofNat 8 b, rsv1 := 0#8, len := 0#8 }))) ∧
  (∀ l ≤ 255,
    assemble (.xfwd (some l)) = some (encode (.xfwd { rsv0 := 0#4, arg := 0#8, rsv1 := 0#8, len := BitVec.ofNat 8 l })) ∧
    assemble (.xrev (some l)) = some (encode (.xrev { rsv0 := 0#4, arg := 0#8, rsv1 := 0#8, len := BitVec.ofNat 8 l })) ∧
    assemble (.encode (some l)) =
      some (encode (.encode { rsv0 := 0#4, arg := 0#8, rsv1 := 0#8, len := BitVec.ofNat 8 l })) ∧
    assemble (.decode (some l)) =
      some (encode (.decode { rsv0 := 0#4, arg := 0#8, rsv1 := 0#8, len := BitVec.ofNat 8 l }))) ∧
  (assemble (.xfwd none) = some 0x30000003#32 ∧ assemble (.xrev none) = some 0x30000004#32 ∧
    assemble (.encode none) = some 0x30000005#32 ∧ assemble (.decode none) = some 0xC0000006#32) ∧
  (∀ w : Word, assemble (.cmd w.toNat) = some w) ∧
  (∀ n > 15, assemble (.encnib n) = none) ∧ (∀ b > 255, assemble (.lookup b) = none)

/-! ### Running a command -/

/-- A step whose pending event is an admitted write of `w` to `CMD` is the meaning of the command `w` decodes to, with
the event taken off the list and the write answered normally (R23, R100, R175). -/
def Obligations.StepRunsDecodedCommand : Prop :=
  ∀ (s : State) (a : Access) (w : Word) (rest : List Event), s.pending = .access a :: rest → a.kind = .write w →
    a.width = 32 → a.off = 0x004 →
    step s = exec (decode w) { s with pending := rest, response := .writeDone }

/-- Which outcome each of the 2^32 command words has: the checks of the decode function in its order, a failing word
writing its code to `STATUS.ERR` and nothing else (R79, R172, R174), a legal one ending with `STATUS.ERR` = 0 (R100). -/
def Obligations.CommandWordOutcomeByClass : Prop :=
  ∀ (w : Word) (s : State),
    let op := (w.extractLsb' 0 4).toNat
    let arg := w.extractLsb' 8 8
    let len := w.extractLsb' 24 8
    let fails := fun c : BitVec 4 => exec (decode w) s = .next { s with err := c }
    let runs := ∃ t, exec (decode w) s = .next t ∧ t.err = 0#4
    if 7 ≤ op then fails 2#4
    else if w.extractLsb' 4 4 ≠ 0#4 ∨ w.extractLsb' 16 8 ≠ 0#8 then fails 3#4
    else if op = 0 then (if arg ≠ 0#8 ∨ len ≠ 0#8 then fails 3#4 else runs)
    else if op = 1 then (if w.extractLsb' 12 4 ≠ 0#4 ∨ len ≠ 0#8 then fails 3#4 else runs)
    else if op = 2 then (if len ≠ 0#8 then fails 3#4 else runs)
    else if arg ≠ 0#8 then fails 3#4
    else if op = 6 then (if len ≠ 192#8 then fails 1#4 else runs)
    else (if len ≠ 48#8 then fails 1#4 else runs)

/-- `NOP` (R105): its only legal word is 0; with every field 0 it writes `STATUS.ERR` 0 and nothing else, with any
other bit set it fails with 3, and no other command clears `STATUS.ERR` without changing something else in some
state. -/
def Obligations.NopClearsErrOnly : Prop :=
  (∀ f : Fields, (Instr.nop f).wf = true ↔ encode (.nop f) = 0x00000000#32) ∧
  (∀ (f : Fields) (s : State),
    (f.rsv0 = 0#4 ∧ f.rsv1 = 0#8 ∧ f.arg = 0#8 ∧ f.len = 0#8 → exec (.nop f) s = .next { s with err := 0#4 }) ∧
    (¬(f.rsv0 = 0#4 ∧ f.rsv1 = 0#8 ∧ f.arg = 0#8 ∧ f.len = 0#8) → exec (.nop f) s = .next { s with err := 3#4 })) ∧
  ∀ i : Instr, (∀ s : State, exec i s = .next { s with err := 0#4 }) →
    i = .nop { rsv0 := 0#4, arg := 0#8, rsv1 := 0#8, len := 0#8 }

/-- `ENCNIB` (R120): its word, its result `CB[ARG[3:0]]` with every other field but `ERR` unchanged, and its errors. -/
def Obligations.EncnibGivesCodeword : Prop :=
  (∀ n : Nibble, encode (.encnib { rsv0 := 0#4, arg := n.setWidth 8, rsv1 := 0#8, len := 0#8 }) =
    BitVec.ofNat 32 (1 + 256 * n.toNat)) ∧
  ∀ (f : Fields) (s : State),
    (f.rsv0 = 0#4 ∧ f.rsv1 = 0#8 ∧ f.arg.toNat < 16 ∧ f.len = 0#8 →
      exec (.encnib f) s = .next { s with result := codebook.getD f.arg.toNat 0#8, err := 0#4 }) ∧
    (¬(f.rsv0 = 0#4 ∧ f.rsv1 = 0#8 ∧ f.arg.toNat < 16 ∧ f.len = 0#8) →
      exec (.encnib f) s = .next { s with err := 3#4 })

/-- `LOOKUP` (R121): its word, its result `RM[ARG]` and the flag `AMBIG`, with every other field but `ERR` unchanged,
and its errors. -/
def Obligations.LookupGivesReverseMapEntry : Prop :=
  (∀ b : Byte, encode (.lookup { rsv0 := 0#4, arg := b, rsv1 := 0#8, len := 0#8 }) =
    BitVec.ofNat 32 (2 + 256 * b.toNat)) ∧
  ∀ (f : Fields) (s : State),
    (f.rsv0 = 0#4 ∧ f.rsv1 = 0#8 ∧ f.len = 0#8 →
      exec (.lookup f) s = .next { s with
        result := BitVec.ofNat 8 (reverseMap f.arg).toNat
        ambig := decide ((reverseMap f.arg).toNat = 16)
        err := 0#4 }) ∧
    (¬(f.rsv0 = 0#4 ∧ f.rsv1 = 0#8 ∧ f.len = 0#8) → exec (.lookup f) s = .next { s with err := 3#4 })

/-- `XFWD` (R133) with `T` as R130 states it: its word, bit `b` of `IN[i]` at bit `i mod 8` of `OUT[6b + i div 8]`,
every byte outside `OUT[0..47]` and every other field unchanged, and its errors. -/
def Obligations.XfwdTransposesInput : Prop :=
  encode (.xfwd { rsv0 := 0#4, arg := 0#8, rsv1 := 0#8, len := 48#8 }) = 0x30000003#32 ∧
  ∀ (f : Fields) (s : State),
    (f.rsv0 = 0#4 ∧ f.rsv1 = 0#8 ∧ f.arg = 0#8 ∧ f.len = 48#8 →
      ∃ t, exec (.xfwd f) s = .next t ∧
        (∀ i < 48, ∀ b < 8, (outByte t (6 * b + i / 8)).getLsbD (i % 8) = (inByte s i).getLsbD b) ∧
        (∀ a, ¬(0x200 ≤ a ∧ a < 0x200 + 48) → Memory.read t.mem a = Memory.read s.mem a) ∧
        t.outLen = 48#8 ∧ t.err = 0#4 ∧ t.decErr = s.decErr ∧ t.ambig = s.ambig ∧ t.result = s.result ∧
        t.pending = s.pending ∧ t.response = s.response) ∧
    (f.rsv0 ≠ 0#4 ∨ f.rsv1 ≠ 0#8 ∨ f.arg ≠ 0#8 → exec (.xfwd f) s = .next { s with err := 3#4 }) ∧
    (f.rsv0 = 0#4 ∧ f.rsv1 = 0#8 ∧ f.arg = 0#8 ∧ f.len ≠ 48#8 → exec (.xfwd f) s = .next { s with err := 1#4 })

/-- `XREV` (R134) with the inverse of `T` as R131 states it: its word, bit `k` of `IN[j]` at bit `j div 6` of
`OUT[8*(j mod 6) + k]`, every byte outside `OUT[0..47]` and every other field unchanged, and its errors; after `XFWD` and a host copy of
`OUT[0..47]` into `IN[0..47]` it gives the first `IN[0..47]` back. -/
def Obligations.XrevReverseTransposesInput : Prop :=
  encode (.xrev { rsv0 := 0#4, arg := 0#8, rsv1 := 0#8, len := 48#8 }) = 0x30000004#32 ∧
  (∀ (f : Fields) (s : State),
    (f.rsv0 = 0#4 ∧ f.rsv1 = 0#8 ∧ f.arg = 0#8 ∧ f.len = 48#8 →
      ∃ t, exec (.xrev f) s = .next t ∧
        (∀ j < 48, ∀ k < 8, (outByte t (8 * (j % 6) + k)).getLsbD (j / 6) = (inByte s j).getLsbD k) ∧
        (∀ a, ¬(0x200 ≤ a ∧ a < 0x200 + 48) → Memory.read t.mem a = Memory.read s.mem a) ∧
        t.outLen = 48#8 ∧ t.err = 0#4 ∧ t.decErr = s.decErr ∧ t.ambig = s.ambig ∧ t.result = s.result ∧
        t.pending = s.pending ∧ t.response = s.response) ∧
    (f.rsv0 ≠ 0#4 ∨ f.rsv1 ≠ 0#8 ∨ f.arg ≠ 0#8 → exec (.xrev f) s = .next { s with err := 3#4 }) ∧
    (f.rsv0 = 0#4 ∧ f.rsv1 = 0#8 ∧ f.arg = 0#8 ∧ f.len ≠ 48#8 → exec (.xrev f) s = .next { s with err := 1#4 })) ∧
  ∀ (f g : Fields) (s t u : State), f.rsv0 = 0#4 ∧ f.rsv1 = 0#8 ∧ f.arg = 0#8 ∧ f.len = 48#8 →
    g.rsv0 = 0#4 ∧ g.rsv1 = 0#8 ∧ g.arg = 0#8 ∧ g.len = 48#8 → exec (.xfwd f) s = .next t →
    (∀ k < 48, inByte u k = outByte t k) →
    ∃ v, exec (.xrev g) u = .next v ∧ ∀ k < 48, outByte v k = inByte s k

/-- `ENCODE` (R144), every bit of the block where R143 puts it: bit `b` of the codeword of the high nibble (streams 0
and 1) or low nibble (streams 2 and 3) of `IN[i]` at bit `i mod 8` of `OUT[24b + 6n + i div 8]`. -/
def Obligations.EncodeWritesBlock : Prop :=
  encode (.encode { rsv0 := 0#4, arg := 0#8, rsv1 := 0#8, len := 48#8 }) = 0x30000005#32 ∧
  ∀ (f : Fields) (s : State),
    (f.rsv0 = 0#4 ∧ f.rsv1 = 0#8 ∧ f.arg = 0#8 ∧ f.len = 48#8 →
      ∃ t, exec (.encode f) s = .next t ∧
        (∀ n < 4, ∀ b < 8, ∀ i < 48, (outByte t (24 * b + 6 * n + i / 8)).getLsbD (i % 8) =
          (codeword (if n < 2 then (inByte s i).extractLsb' 4 4 else (inByte s i).extractLsb' 0 4)).getLsbD b) ∧
        (∀ a, ¬(0x200 ≤ a ∧ a < 0x200 + 192) → Memory.read t.mem a = Memory.read s.mem a) ∧
        t.outLen = 192#8 ∧ t.err = 0#4 ∧ t.decErr = s.decErr ∧ t.ambig = s.ambig ∧ t.result = s.result ∧
        t.pending = s.pending ∧ t.response = s.response) ∧
    (f.rsv0 ≠ 0#4 ∨ f.rsv1 ≠ 0#8 ∨ f.arg ≠ 0#8 → exec (.encode f) s = .next { s with err := 3#4 }) ∧
    (f.rsv0 = 0#4 ∧ f.rsv1 = 0#8 ∧ f.arg = 0#8 ∧ f.len ≠ 48#8 → exec (.encode f) s = .next { s with err := 1#4 })

/-- `DECODE` (R155): byte `i` of stream `n` is read from the bits R143 puts it at, looked up, and the two copies of each
half resolved; `OUT[i]` combines the halves and `DEC_ERR` says whether any is unresolved (R150 to R154, R156). -/
def Obligations.DecodeWritesMessageAndFlag : Prop :=
  encode (.decode { rsv0 := 0#4, arg := 0#8, rsv1 := 0#8, len := 192#8 }) = 0xC0000006#32 ∧
  ∀ (f : Fields) (s : State),
    let sym := fun n i => symbolOf (reverseMap (byteOfBits fun b => (inByte s (24 * b + 6 * n + i / 8)).getLsbD (i % 8)))
    (f.rsv0 = 0#4 ∧ f.rsv1 = 0#8 ∧ f.arg = 0#8 ∧ f.len = 192#8 →
      ∃ t, exec (.decode f) s = .next t ∧
        (∀ i < 48, outByte t i =
          combineNibbles (resolve (sym 0 i) (sym 1 i)).1 (resolve (sym 2 i) (sym 3 i)).1) ∧
        (t.decErr = true ↔ ∃ i < 48,
          (resolve (sym 0 i) (sym 1 i)).2 = true ∨ (resolve (sym 2 i) (sym 3 i)).2 = true) ∧
        (∀ a, ¬(0x200 ≤ a ∧ a < 0x200 + 48) → Memory.read t.mem a = Memory.read s.mem a) ∧
        t.outLen = 48#8 ∧ t.err = 0#4 ∧ t.ambig = s.ambig ∧ t.result = s.result ∧
        t.pending = s.pending ∧ t.response = s.response) ∧
    (f.rsv0 ≠ 0#4 ∨ f.rsv1 ≠ 0#8 ∨ f.arg ≠ 0#8 → exec (.decode f) s = .next { s with err := 3#4 }) ∧
    (f.rsv0 = 0#4 ∧ f.rsv1 = 0#8 ∧ f.arg = 0#8 ∧ f.len ≠ 192#8 → exec (.decode f) s = .next { s with err := 1#4 })

/-- A command word with `OP` 0x7 to 0xF writes 2 to `STATUS.ERR` and nothing else, whatever its other bits (R74). -/
def Obligations.ReservedOpcodesFail : Prop :=
  (∀ (w : Word) (s : State), 7 ≤ (w.extractLsb' 0 4).toNat → exec (decode w) s = .next { s with err := 2#4 }) ∧
  (∀ (f : Fields) (s : State), exec (.reserved7 f) s = .next { s with err := 2#4 }) ∧
  (∀ (low : BitVec 3) (f : Fields) (s : State), exec (.reservedHigh low f) s = .next { s with err := 2#4 })

/-! ### What every command keeps -/

/-- `STATUS.ERR` is 0 after exactly the legal commands, and a failing command changes nothing else (R101, R172). -/
def Obligations.ErrTellsSuccessAndFailureIsPrecise : Prop :=
  ∀ (i : Instr) (s : State), ∃ t, exec i s = .next t ∧
    (t.err = 0#4 ↔ i.wf = true ∧ i.opcode.toNat < 7) ∧
    (t.err ≠ 0#4 → t = { s with err := t.err } ∧ (t.err = 1#4 ∨ t.err = 2#4 ∨ t.err = 3#4))

/-- `NOP`, `ENCNIB`, `LOOKUP` and the reserved opcodes change no byte of memory; `XFWD`, `XREV` and `DECODE` at most
`OUT[0..47]`; `ENCODE` at most `OUT[0..191]`; so no command changes `IN` (R28, R29, R102). -/
def Obligations.CommandsWriteOnlyTheirOutputBytes : Prop :=
  ∀ (i : Instr) (s t : State), exec i s = .next t → ∀ a,
    (i.opcode.toNat = 5 → ¬(0x200 ≤ a ∧ a < 0x200 + 192)) →
    (i.opcode.toNat = 3 ∨ i.opcode.toNat = 4 ∨ i.opcode.toNat = 6 → ¬(0x200 ≤ a ∧ a < 0x200 + 48)) →
    Memory.read t.mem a = Memory.read s.mem a

/-- Running a command twice leaves the same state as running it once (R103). -/
def Obligations.CommandTwiceIsCommandOnce : Prop :=
  ∀ (i : Instr) (s t : State), Memory.wf s.mem → exec i s = .next t → exec i t = .next t

/-- A command reads only its word and `IN`: from two states with the same `IN`, each field and each byte of `OUT` ends
equal, or unchanged in both (R100, R103). -/
def Obligations.CommandsReadOnlyIn : Prop :=
  ∀ (i : Instr) (s s' t t' : State), (∀ k < 192, inByte s k = inByte s' k) → exec i s = .next t → exec i s' = .next t' →
    t.err = t'.err ∧
    (t.decErr = t'.decErr ∨ (t.decErr = s.decErr ∧ t'.decErr = s'.decErr)) ∧
    (t.ambig = t'.ambig ∨ (t.ambig = s.ambig ∧ t'.ambig = s'.ambig)) ∧
    (t.result = t'.result ∨ (t.result = s.result ∧ t'.result = s'.result)) ∧
    (t.outLen = t'.outLen ∨ (t.outLen = s.outLen ∧ t'.outLen = s'.outLen)) ∧
    (∀ k < 192, outByte t k = outByte t' k ∨ (outByte t k = outByte s k ∧ outByte t' k = outByte s' k))

/-- What the state can hold is kept by every step, from every state that meets it: canonical memory, `ERR` at most 3
(R24), `OUT_LEN` 0, 48 or 192 (R26), `RESULT` a codeword or a ReverseMap entry (R25). -/
def Obligations.StepKeepsInvariant : Prop := ∀ s t : State, Inv s → step s = .next t → Inv t

/-- Reset meets the invariant every step keeps. -/
def Obligations.ResetMeetsInvariant : Prop := Inv State.reset

/-- After reset every field of the record is 0 and every byte of `IN` and `OUT` is 0x00, and the words of `ID`, `PARAM`
and the two tables are those of every state (R33). -/
def Obligations.ResetValuesAreZero : Prop :=
  State.reset.err = 0#4 ∧ State.reset.decErr = false ∧ State.reset.ambig = false ∧ State.reset.result = 0#8 ∧
  State.reset.outLen = 0#8 ∧ (∀ k < 192, inByte State.reset k = 0x00#8) ∧ (∀ k < 192, outByte State.reset k = 0x00#8) ∧
  ∀ (s : State) (off : Nat), off ≤ 0x003 ∨ (0x014 ≤ off ∧ off ≤ 0x017) ∨ (0x300 ≤ off ∧ off ≤ 0x30F) ∨
    (0x400 ≤ off ∧ off ≤ 0x4FF) → readWindow s off = readWindow State.reset off

/-- In one step `DEC_ERR` changes only by a legal `DECODE`, `AMBIG` only by a legal `LOOKUP`, `RESULT` only by a legal
`ENCNIB` or `LOOKUP`, `OUT_LEN` only by a legal buffer command, or by reset (R24, R25, R26). -/
def Obligations.FieldsHaveTheirWriters : Prop :=
  ∀ (s t : State) (e : Event) (rest : List Event), s.pending = e :: rest → step s = .next t → assertsReset e = false →
    let by_ := fun ops : List Nat =>
      ∃ w, commandOfEvent e = some w ∧ (w.extractLsb' 0 4).toNat ∈ ops ∧ (decode w).wf = true
    (t.decErr ≠ s.decErr → by_ [6]) ∧ (t.ambig ≠ s.ambig → by_ [2]) ∧ (t.result ≠ s.result → by_ [1, 2]) ∧
    (t.outLen ≠ s.outLen → by_ [3, 4, 5, 6]) ∧ (t.err ≠ s.err → ∃ w, commandOfEvent e = some w)

/-- In one step without reset a byte of `OUT` changes only by a legal buffer command, a byte of `IN` only by an admitted
host write to the word that holds it (R28, R29). -/
def Obligations.BufferBytesHaveTheirWriters : Prop :=
  ∀ (s t : State) (e : Event) (rest : List Event), s.pending = e :: rest → step s = .next t → assertsReset e = false →
    (∀ k < 192, outByte t k ≠ outByte s k →
      ∃ w, commandOfEvent e = some w ∧ (w.extractLsb' 0 4).toNat ∈ [3, 4, 5, 6] ∧ (decode w).wf = true) ∧
    (∀ k < 192, inByte t k ≠ inByte s k → ∃ v, wordWritten (0x100 + 4 * (k / 4)) (0x100 + 4 * (k / 4) + 3) e = some v)

/-! ### The window and the bus -/

/-- What an admitted read answers at every offset, little-endian, changing nothing but the bus (R51, R52, R55). -/
def Obligations.WindowReadsByRegion : Prop :=
  ∀ (s : State) (a : Access) (rest : List Event), s.pending = .access a :: rest → (a.kind = .read ∨ a.kind = .fetch) →
    a.width = 32 → a.off % 4 = 0 → a.off < 4096 →
    ∃ v : Word, step s = .next { s with pending := rest, response := .readData v } ∧
      (a.off = 0x000 → v = 0x51430701#32) ∧
      (a.off = 0x004 → v = 0#32) ∧
      (a.off = 0x008 → v.toNat = s.err.toNat + 16 * s.decErr.toNat + 32 * s.ambig.toNat) ∧
      (a.off = 0x00C → v.toNat = s.result.toNat) ∧
      (a.off = 0x010 → v.toNat = s.outLen.toNat) ∧
      (a.off = 0x014 → v = 0x6310C030#32) ∧
      (0x018 ≤ a.off ∧ a.off ≤ 0x0FF → v = 0#32) ∧
      (0x100 ≤ a.off ∧ a.off ≤ 0x1BF → ∀ j < 4, v.extractLsb' (8 * j) 8 = inByte s (a.off - 0x100 + j)) ∧
      (0x1C0 ≤ a.off ∧ a.off ≤ 0x1FF → v = 0#32) ∧
      (0x200 ≤ a.off ∧ a.off ≤ 0x2BF → ∀ j < 4, v.extractLsb' (8 * j) 8 = outByte s (a.off - 0x200 + j)) ∧
      (0x2C0 ≤ a.off ∧ a.off ≤ 0x2FF → v = 0#32) ∧
      (0x300 ≤ a.off ∧ a.off ≤ 0x30F → ∀ j < 4, v.extractLsb' (8 * j) 8 = codebook.getD (a.off - 0x300 + j) 0#8) ∧
      (0x310 ≤ a.off ∧ a.off ≤ 0x3FF → v = 0#32) ∧
      (0x400 ≤ a.off ∧ a.off ≤ 0x4FF →
        ∀ j < 4, (v.extractLsb' (8 * j) 8).toNat = (reverseMap (BitVec.ofNat 8 (a.off - 0x400 + j))).toNat) ∧
      (0x500 ≤ a.off → v = 0#32)

/-- An admitted write to `IN` stores the word's four bytes, bits 7:0 first, and changes no other byte and no field
(R53, R55). -/
def Obligations.InWordWrittenLittleEndian : Prop :=
  ∀ (s : State) (a : Access) (v : Word) (rest : List Event), s.pending = .access a :: rest → a.kind = .write v →
    a.width = 32 → a.off % 4 = 0 → 0x100 ≤ a.off → a.off ≤ 0x1BF →
    ∃ m, step s = .next { s with mem := m, pending := rest, response := .writeDone } ∧
      (∀ j < 4, Memory.read m (a.off + j) = v.extractLsb' (8 * j) 8) ∧
      (∀ x, ¬(a.off ≤ x ∧ x < a.off + 4) → Memory.read m x = Memory.read s.mem x)

/-- An admitted write to anything but `CMD` and `IN` completes normally and changes no state, and an admitted read of
`CMD` or of a reserved offset returns 0 (R56). -/
def Obligations.OtherWritesAreIgnored : Prop :=
  (∀ (s : State) (a : Access) (v : Word) (rest : List Event), s.pending = .access a :: rest → a.kind = .write v →
    a.width = 32 → a.off % 4 = 0 → a.off < 4096 → a.off ≠ 0x004 → ¬(0x100 ≤ a.off ∧ a.off ≤ 0x1BF) →
    step s = .next { s with pending := rest, response := .writeDone }) ∧
  ∀ (s : State) (a : Access) (rest : List Event), s.pending = .access a :: rest → a.kind = .read →
    a.width = 32 → a.off % 4 = 0 →
    (a.off = 0x004 ∨ (0x018 ≤ a.off ∧ a.off ≤ 0x0FF) ∨ (0x1C0 ≤ a.off ∧ a.off ≤ 0x1FF) ∨
      (0x2C0 ≤ a.off ∧ a.off ≤ 0x2FF) ∨ (0x310 ≤ a.off ∧ a.off ≤ 0x3FF) ∨ (0x500 ≤ a.off ∧ a.off ≤ 0xFFF)) →
    step s = .next { s with pending := rest, response := .readData 0#32 }

/-- An access of another width, misaligned, or outside the window is answered with a bus error and changes no state,
`STATUS.ERR` included, and no command runs; every other access is answered without one (R54, R173). -/
def Obligations.UnadmittedAccessChangesNothing : Prop :=
  ∀ (s : State) (a : Access) (rest : List Event), s.pending = .access a :: rest →
    (a.width ≠ 32 ∨ a.off % 4 ≠ 0 ∨ 4096 ≤ a.off →
      step s = .next { s with pending := rest, response := .busError }) ∧
    (a.width = 32 ∧ a.off % 4 = 0 ∧ a.off < 4096 →
      ∃ t, step s = .next t ∧ (t.response = .writeDone ∨ ∃ v, t.response = .readData v))

/-- Which master issues an access, in which host mode and whether exclusively, changes nothing, and a fetch is a read
(R60, R61, R179). -/
def Obligations.MasterModeAndExclusivityAreIgnored : Prop :=
  ∀ (s : State) (a a' : Access),
    (a'.kind = a.kind ∨ (a'.kind = .fetch ∧ a.kind = .read)) → a'.off = a.off → a'.width = a.width →
    serve (.access a') s = serve (.access a) s

/-- Reset, asserted between accesses or during a held `CMD` write, puts the whole record at its reset values from any
state, and twice is once; the registers but `ID` and `PARAM` then read 0 and the buffers hold 0x00; none of the
abandoned command's effects survive (R190). What is pending and what the host is answered are left out: they are the
model's bus, not the record (log entries 1, 2 and 5). -/
def Obligations.ResetReachesResetState : Prop :=
  ∀ (s : State) (w : Word) (r : Response),
    (∃ t u, serve .reset s = .next t ∧ serve .reset t = .next u ∧
      { t with pending := [], response := .none } = State.reset ∧
      { u with pending := [], response := .none } = { t with pending := [], response := .none } ∧
      readWindow t 0x000 = 0x51430701#32 ∧ readWindow t 0x004 = 0#32 ∧
      readWindow t 0x008 = 0#32 ∧ readWindow t 0x00C = 0#32 ∧ readWindow t 0x010 = 0#32 ∧
      readWindow t 0x014 = 0x6310C030#32 ∧ ∀ k < 192, inByte t k = 0x00#8 ∧ outByte t k = 0x00#8) ∧
    (∃ t, serve (.resetDuringCommand w r) s = .next t ∧ { t with pending := [], response := .none } = State.reset)

/-- A step serves the oldest event, reset events included, takes it off the list and completes; as many steps as there
are events serve them all, in order (R58, R190, R196). A step with nothing pending changes nothing: that, and the list
itself, is the model's choice (log entries 6 and 1). -/
def Obligations.EventsAreServedInOrderAndAllComplete : Prop :=
  (∀ (s : State) (e : Event) (rest : List Event), s.pending = e :: rest →
    step s = serve e { s with pending := rest } ∧ ∃ t, step s = .next t ∧ t.pending = rest) ∧
  (∀ s : State, s.pending = [] → step s = .next s) ∧
  (∀ s : State, ∃ t, Host.Core.run Sys2Proof.core s.pending.length s = .next t ∧ t.pending = [] ∧
    serveAll s.pending { s with pending := [] } = .next t)

/-- A read right after a write to a word of `IN` sees the new word there and the old one everywhere else (R58, R194). -/
def Obligations.ReadAfterInWriteSeesIt : Prop :=
  ∀ (s : State) (off off' : Nat) (v : Word), off % 4 = 0 → 0x100 ≤ off → off ≤ 0x1BF → off' % 4 = 0 → off' < 4096 →
    ∃ t, serveAll [.access (wordAccess (.write v) off), .access (wordAccess .read off')] s = .next t ∧
      t.response = .readData (if off' = off then v else readWindow s off')

/-- An access of the host's address space that falls in the window reaches the QCU at its offset from `QCU_BASE`,
aligned as its address is; another address does not reach it (R7, R50). -/
def Obligations.RoutingKeepsOffsetAndAlignment : Prop :=
  ∀ (addr : Nat) (a : Access),
    (∀ a', routeAccess addr a = some a' →
      a'.off < 4096 ∧ addr = Config.qcuBase + a'.off ∧ a'.off % 4 = addr % 4 ∧ a'.kind = a.kind ∧ a'.width = a.width) ∧
    (routeAccess addr a = none ↔ addr < Config.qcuBase ∨ Config.qcuBase + 4096 ≤ addr)

/-! ### The tables -/

/-- The Codebook's contents are what the builder of R112 makes, which does not fail (R113, R114). -/
def Obligations.CodebookIsBuilderOutput : Prop :=
  buildCodebook = .ok codebook ∧
  acceptedCodewords = [0xAA#8, 0x55#8, 0x03#8, 0x0C#8, 0x16#8, 0x19#8, 0x25#8, 0x30#8, 0x3F#8, 0x4A#8, 0x66#8, 0x69#8,
    0x73#8, 0x7C#8, 0x8F#8, 0xC0#8]

/-- The ReverseMap's contents are what the builder of R115 makes from the Codebook (R117). -/
def Obligations.ReverseMapIsBuilderOutput : Prop :=
  ∀ v : Byte, (reverseMap v).toNat = buildReverseMapEntry codebook v

/-- A byte maps to a nibble exactly when that nibble's codeword is nearer to it than every other, and else to 16
(R115). -/
def Obligations.ReverseMapGivesUniqueNearest : Prop :=
  ∀ v : Byte,
    (∀ n : Nibble, (reverseMap v).toNat = n.toNat ↔ ∀ m : Nibble, m ≠ n → hd v (codeword n) < hd v (codeword m)) ∧
    (reverseMap v).toNat ≤ 16

/-- The Hamming distance is a metric with values 0 to 8 (R110). -/
def Obligations.HammingDistanceIsAMetric : Prop :=
  ∀ a b c : Byte, hd a a = 0 ∧ (hd a b = 0 → a = b) ∧ hd a b = hd b a ∧ hd a c ≤ hd a b + hd b c ∧ hd a b ≤ 8

/-- Codewords are at pairwise distance at least 3, and a codeword with at most one bit wrong maps back to its nibble
(R114, R116). -/
def Obligations.CodewordsSurviveOneBitError : Prop :=
  (∀ m n : Nibble, m ≠ n → 3 ≤ hd (codeword m) (codeword n)) ∧
  ∀ (n : Nibble) (v : Byte), hd v (codeword n) ≤ 1 → symbolOf (reverseMap v) = .definite n

/-! ### The transposition -/

/-- `T` and its inverse undo each other on every 48-byte buffer (R132). -/
def Obligations.TranspositionRoundTrips : Prop :=
  ∀ x : List Byte, x.length = 48 → untranspose (transpose x) = x ∧ transpose (untranspose x) = x

/-- `T` is linear over XOR (R132). -/
def Obligations.TranspositionIsLinear : Prop :=
  ∀ x z : List Byte, x.length = 48 → z.length = 48 →
    transpose (List.zipWith (· ^^^ ·) x z) = List.zipWith (· ^^^ ·) (transpose x) (transpose z)

/-- Two buffers that differ only in group `b` of 6 bytes reverse-transpose to buffers that differ only in bit `b` of
their bytes (R132, the burst mechanism). -/
def Obligations.GroupDamageStaysInOnePlane : Prop :=
  ∀ (y y' : List Byte) (b : Nat), (∀ j < 48, j / 6 ≠ b → byteAt y j = byteAt y' j) →
    ∀ i < 48, ∀ c < 8, c ≠ b → (byteAt (untranspose y) i).getLsbD c = (byteAt (untranspose y') i).getLsbD c

/-! ### The Encoder and the Decoder -/

/-- Where each codeword bit ends up in the block (R143). -/
def Obligations.CodewordBitsPlacedInBlock : Prop :=
  ∀ (m : List Byte), m.length = 48 → ∀ n < 4, ∀ b < 8, ∀ i < 48,
    (byteAt (encodeBlock m) (24 * b + 6 * n + i / 8)).getLsbD (i % 8) =
      (byteAt (if n < 2 then highStream m else lowStream m) i).getLsbD b

/-- The Decoder's split undoes the Encoder's layout (R142, R150). -/
def Obligations.SplitInvertsLayout : Prop :=
  ∀ h l : List Byte, h.length = 48 → l.length = 48 →
    splitStream (layout h l) 0 = h ∧ splitStream (layout h l) 1 = h ∧
    splitStream (layout h l) 2 = l ∧ splitStream (layout h l) 3 = l

/-- The resolution of the two copies of a half, for every pair of symbols (R153). -/
def Obligations.ResolveFollowsTable : Prop :=
  (∀ a : Nibble, resolve (.definite a) (.definite a) = (a, false)) ∧
  (∀ a b : Nibble, a ≠ b → resolve (.definite a) (.definite b) = (0#4, true)) ∧
  (∀ a : Nibble, resolve (.definite a) .ambiguous = (a, false)) ∧
  (∀ b : Nibble, resolve .ambiguous (.definite b) = (b, false)) ∧
  resolve .ambiguous .ambiguous = (0#4, true) ∧
  (∀ a b : Symbol, resolve a b = resolve b a)

/-- Round trip: `DECODE` of the block `ENCODE` makes of a message gives the message and no error (R158). -/
def Obligations.DecodeOfEncodeReturnsMessage : Prop :=
  ∀ (s u : State) (f g : Fields), f.rsv0 = 0#4 ∧ f.rsv1 = 0#8 ∧ f.arg = 0#8 ∧ f.len = 48#8 →
    g.rsv0 = 0#4 ∧ g.rsv1 = 0#8 ∧ g.arg = 0#8 ∧ g.len = 192#8 →
    ∃ t, exec (.encode f) s = .next t ∧ ((∀ k < 192, inByte u k = outByte t k) →
      ∃ v, exec (.decode g) u = .next v ∧ v.err = 0#4 ∧ v.decErr = false ∧ ∀ k < 48, outByte v k = inByte s k)

/-- Exact correction: a block of `ENCODE` presented with errors of which no stream byte takes two (no two planes `b` of
one stream `n` at one byte position `i`) decodes to the message with no error (R159). -/
def Obligations.SparseErrorsAreCorrected : Prop :=
  ∀ (s t u : State) (f g : Fields), f.rsv0 = 0#4 ∧ f.rsv1 = 0#8 ∧ f.arg = 0#8 ∧ f.len = 48#8 →
    g.rsv0 = 0#4 ∧ g.rsv1 = 0#8 ∧ g.arg = 0#8 ∧ g.len = 192#8 → exec (.encode f) s = .next t →
    (∀ n < 4, ∀ i < 48, ∀ b < 8, ∀ c < 8,
      (inByte u (24 * b + 6 * n + i / 8) ^^^ outByte t (24 * b + 6 * n + i / 8)).getLsbD (i % 8) = true →
      (inByte u (24 * c + 6 * n + i / 8) ^^^ outByte t (24 * c + 6 * n + i / 8)).getLsbD (i % 8) = true → b = c) →
    ∃ v, exec (.decode g) u = .next v ∧ v.err = 0#4 ∧ v.decErr = false ∧ ∀ k < 48, outByte v k = inByte s k

/-- Single burst: a block of `ENCODE` presented with errors confined to one run of at most 192 bit positions, numbered
`8j + k` or `8j + (7 - k)`, has them as sparse as R159 asks, and decodes to the message with no error; a run of 193 bits
can fail, as the first 193 bits of the block of 48 bytes 0x50 show (R160). -/
def Obligations.SingleBurstIsCorrected : Prop :=
  (∀ (s t u : State) (f g : Fields) (start : Nat), f.rsv0 = 0#4 ∧ f.rsv1 = 0#8 ∧ f.arg = 0#8 ∧ f.len = 48#8 →
    g.rsv0 = 0#4 ∧ g.rsv1 = 0#8 ∧ g.arg = 0#8 ∧ g.len = 192#8 → exec (.encode f) s = .next t →
    ((∀ j < 192, ∀ k < 8, (inByte u j ^^^ outByte t j).getLsbD k = true →
        start ≤ 8 * j + k ∧ 8 * j + k < start + 192) ∨
      (∀ j < 192, ∀ k < 8, (inByte u j ^^^ outByte t j).getLsbD k = true →
        start ≤ 8 * j + (7 - k) ∧ 8 * j + (7 - k) < start + 192)) →
    (∀ n < 4, ∀ i < 48, ∀ b < 8, ∀ c < 8,
      (inByte u (24 * b + 6 * n + i / 8) ^^^ outByte t (24 * b + 6 * n + i / 8)).getLsbD (i % 8) = true →
      (inByte u (24 * c + 6 * n + i / 8) ^^^ outByte t (24 * c + 6 * n + i / 8)).getLsbD (i % 8) = true → b = c) ∧
    ∃ v, exec (.decode g) u = .next v ∧ v.err = 0#4 ∧ v.decErr = false ∧ ∀ k < 48, outByte v k = inByte s k) ∧
  hasError ((List.range 192).map fun p => byteAt (encodeBlock (List.replicate 48 0x50#8)) p ^^^
    (if p < 24 then 0xFF#8 else if p = 24 then 0x01#8 else 0x00#8)) = true

/-- Two 96-bit bursts can fail: with bytes 0 to 11 and 24 to 35 of the zero message's block flipped the error flag is
set, with bytes 0 to 11 and 12 to 23 flipped the message returns (R161). -/
def Obligations.TwoBurstsCanFail : Prop :=
  let block := encodeBlock (List.replicate 48 0#8)
  let flipped := fun first : Nat => (List.range 192).map fun p =>
    if p < 12 ∨ (first ≤ p ∧ p < first + 12) then byteAt block p ^^^ 0xFF#8 else byteAt block p
  hasError (flipped 24) = true ∧ hasError (flipped 12) = false ∧
  decodedMessage (flipped 12) = List.replicate 48 0#8
end

