-- ==== Sys2Proof/Laws/Bits.lean ====
section
/-! SUPPORT. Bytes by their bits, and the byte sequences of the Encoder and the Decoder byte by byte and bit by bit. -/

namespace Sys2Proof.Machine

/-- Bit `k` of a byte put together from bits. -/
theorem byteOfBits_getLsbD (f : Nat → Bool) (k : Nat) (hk : k < 8) : (byteOfBits f).getLsbD k = f k := by
  unfold byteOfBits
  simp only [show List.range 8 = [0, 1, 2, 3, 4, 5, 6, 7] from rfl, List.foldl_cons, List.foldl_nil]
  obtain rfl | rfl | rfl | rfl | rfl | rfl | rfl | rfl :
      k = 0 ∨ k = 1 ∨ k = 2 ∨ k = 3 ∨ k = 4 ∨ k = 5 ∨ k = 6 ∨ k = 7 := by omega
  all_goals simp

/-- Two bytes with the same bits are equal. -/
theorem byte_ext (a b : Byte) (h : ∀ k < 8, a.getLsbD k = b.getLsbD k) : a = b :=
  BitVec.eq_of_getLsbD_eq fun k hk => h k hk

/-- A byte put together from its own bits. -/
theorem byteOfBits_self (b : Byte) : byteOfBits (fun k => b.getLsbD k) = b :=
  byte_ext _ _ fun k hk => byteOfBits_getLsbD _ k hk

/-- Byte `j` of a bus word put together from four bytes (R55). -/
theorem wordOfBytes_byte (b0 b1 b2 b3 : Byte) (j : Nat) (hj : j < 4) :
    (wordOfBytes b0 b1 b2 b3).extractLsb' (8 * j) 8 = [b0, b1, b2, b3].getD j 0#8 := by
  refine byte_ext _ _ fun k hk => ?_
  unfold wordOfBytes
  obtain rfl | rfl | rfl | rfl : j = 0 ∨ j = 1 ∨ j = 2 ∨ j = 3 := by omega
  all_goals
    simp only [BitVec.getLsbD_extractLsb', BitVec.getLsbD_append, hk, decide_true, Bool.true_and]
    repeat' (first | rw [if_pos (by omega)] | rw [if_neg (by omega)])
    congr 1
    omega

/-- A word put together from its own bytes. -/
theorem wordOfBytes_of_bytes (w : Word) :
    wordOfBytes (w.extractLsb' 0 8) (w.extractLsb' 8 8) (w.extractLsb' 16 8) (w.extractLsb' 24 8) = w := by
  refine BitVec.eq_of_getLsbD_eq fun k hk => ?_
  simp only [wordOfBytes, BitVec.getLsbD_append, BitVec.getLsbD_extractLsb']
  repeat' split
  all_goals
    rw [decide_eq_true (by omega), Bool.true_and]
    congr 1
    omega

/-- Byte `i` of a sequence given byte by byte. -/
theorem byteAt_map_range (f : Nat → Byte) (n i : Nat) (h : i < n) : byteAt ((List.range n).map f) i = f i := by
  simp [byteAt, h]

/-- Byte `i` of a sequence of one byte per element of another. -/
theorem byteAt_map (x : List Byte) (f : Byte → Byte) (i : Nat) (h : i < x.length) :
    byteAt (x.map f) i = f (byteAt x i) := by
  simp [byteAt, h]

/-- A sequence is given by its length and its bytes. -/
theorem bytes_ext (x y : List Byte) (hl : x.length = y.length) (h : ∀ i < x.length, byteAt x i = byteAt y i) :
    x = y := by
  refine List.ext_getElem hl fun i hx hy => ?_
  simpa [byteAt, hx, hy] using h i hx

@[simp] theorem transpose_length (x : List Byte) : (transpose x).length = 48 := by simp [transpose]
@[simp] theorem untranspose_length (y : List Byte) : (untranspose y).length = 48 := by simp [untranspose]
@[simp] theorem layout_length (h l : List Byte) : (layout h l).length = 192 := by simp [layout]
@[simp] theorem encodeBlock_length (m : List Byte) : (encodeBlock m).length = 192 := by simp [encodeBlock]
@[simp] theorem splitStream_length (e : List Byte) (n : Nat) : (splitStream e n).length = 48 := by simp [splitStream]
@[simp] theorem streamSymbols_length (e : List Byte) (n : Nat) : (streamSymbols e n).length = 48 := by
  simp [streamSymbols]
@[simp] theorem decodePositions_length (e : List Byte) : (decodePositions e).length = 48 := by simp [decodePositions]
@[simp] theorem decodedMessage_length (e : List Byte) : (decodedMessage e).length = 48 := by simp [decodedMessage]
@[simp] theorem inBytes_length (s : State) (n : Nat) : (inBytes s n).length = n := by simp [inBytes]

/-- Byte `k` of the operand of a buffer command. -/
theorem byteAt_inBytes (s : State) (n k : Nat) (h : k < n) : byteAt (inBytes s n) k = inByte s k :=
  byteAt_map_range _ _ _ h

/-- Bit `k` of byte `j` of a transposed buffer (R130, read from the output). -/
theorem transpose_bit (x : List Byte) (j k : Nat) (hj : j < 48) (hk : k < 8) :
    (byteAt (transpose x) j).getLsbD k = (byteAt x (8 * (j % 6) + k)).getLsbD (j / 6) := by
  rw [transpose, byteAt_map_range _ _ _ hj, byteOfBits_getLsbD _ _ hk]

/-- Bit `b` of byte `i` of a reverse-transposed buffer (R131, read from the output). -/
theorem untranspose_bit (y : List Byte) (i b : Nat) (hi : i < 48) (hb : b < 8) :
    (byteAt (untranspose y) i).getLsbD b = (byteAt y (6 * b + i / 8)).getLsbD (i % 8) := by
  rw [untranspose, byteAt_map_range _ _ _ hi, byteOfBits_getLsbD _ _ hb]

/-- Byte `p` of a laid out block (R142). -/
theorem byteAt_layout (h l : List Byte) (p : Nat) (hp : p < 192) :
    byteAt (layout h l) p = byteAt (if p % 24 < 12 then h else l) (6 * (p / 24) + p % 6) := by
  rw [layout, byteAt_map_range _ _ _ hp]

/-- Byte `j` of a stream of a block (R150). -/
theorem byteAt_splitStream (e : List Byte) (n j : Nat) (hj : j < 48) :
    byteAt (splitStream e n) j = byteAt e (6 * (4 * (j / 6) + n) + j % 6) := by
  rw [splitStream, byteAt_map_range _ _ _ hj]

/-- Symbol `i` of a stream of a block: the ReverseMap's reading of its reverse-transposed byte (R151, R152). -/
theorem symbolAt_streamSymbols (e : List Byte) (n i : Nat) (hi : i < 48) :
    symbolAt (streamSymbols e n) i = symbolOf (reverseMap (byteAt (untranspose (splitStream e n)) i)) := by
  have h : i < (untranspose (splitStream e n)).length := by simpa using hi
  simp [symbolAt, streamSymbols, byteAt, List.getElem?_eq_getElem h]

/-- Byte `i` of the decoded message (R154). -/
theorem byteAt_decodedMessage (e : List Byte) (i : Nat) (hi : i < 48) :
    byteAt (decodedMessage e) i =
      (decodePosition (symbolAt (streamSymbols e 0) i) (symbolAt (streamSymbols e 1) i)
        (symbolAt (streamSymbols e 2) i) (symbolAt (streamSymbols e 3) i)).1 := by
  simp [decodedMessage, decodePositions, byteAt, hi]

/-- The error flag of a block: some byte position has an unresolved half (R154). -/
theorem hasError_iff (e : List Byte) :
    hasError e = true ↔ ∃ i < 48, (decodePosition (symbolAt (streamSymbols e 0) i) (symbolAt (streamSymbols e 1) i)
      (symbolAt (streamSymbols e 2) i) (symbolAt (streamSymbols e 3) i)).2 = true := by
  simp [hasError, decodePositions]

end Sys2Proof.Machine
end

