-- ==== Sys2Proof/Laws/State.lean ====
section
/-! SUPPORT. One lemma per field per update of State, so that no proof unfolds a record update. -/

namespace Sys2Proof.Machine

@[simp] theorem setErr_err (s : State) (v : BitVec 4) : (s.setErr v).err = v := rfl
@[simp] theorem setErr_decErr (s : State) (v : BitVec 4) : (s.setErr v).decErr = s.decErr := rfl
@[simp] theorem setErr_ambig (s : State) (v : BitVec 4) : (s.setErr v).ambig = s.ambig := rfl
@[simp] theorem setErr_result (s : State) (v : BitVec 4) : (s.setErr v).result = s.result := rfl
@[simp] theorem setErr_outLen (s : State) (v : BitVec 4) : (s.setErr v).outLen = s.outLen := rfl
@[simp] theorem setErr_mem (s : State) (v : BitVec 4) : (s.setErr v).mem = s.mem := rfl
@[simp] theorem setErr_pending (s : State) (v : BitVec 4) : (s.setErr v).pending = s.pending := rfl
@[simp] theorem setErr_response (s : State) (v : BitVec 4) : (s.setErr v).response = s.response := rfl

@[simp] theorem setDecErr_err (s : State) (v : Bool) : (s.setDecErr v).err = s.err := rfl
@[simp] theorem setDecErr_decErr (s : State) (v : Bool) : (s.setDecErr v).decErr = v := rfl
@[simp] theorem setDecErr_ambig (s : State) (v : Bool) : (s.setDecErr v).ambig = s.ambig := rfl
@[simp] theorem setDecErr_result (s : State) (v : Bool) : (s.setDecErr v).result = s.result := rfl
@[simp] theorem setDecErr_outLen (s : State) (v : Bool) : (s.setDecErr v).outLen = s.outLen := rfl
@[simp] theorem setDecErr_mem (s : State) (v : Bool) : (s.setDecErr v).mem = s.mem := rfl
@[simp] theorem setDecErr_pending (s : State) (v : Bool) : (s.setDecErr v).pending = s.pending := rfl
@[simp] theorem setDecErr_response (s : State) (v : Bool) : (s.setDecErr v).response = s.response := rfl

@[simp] theorem setAmbig_err (s : State) (v : Bool) : (s.setAmbig v).err = s.err := rfl
@[simp] theorem setAmbig_decErr (s : State) (v : Bool) : (s.setAmbig v).decErr = s.decErr := rfl
@[simp] theorem setAmbig_ambig (s : State) (v : Bool) : (s.setAmbig v).ambig = v := rfl
@[simp] theorem setAmbig_result (s : State) (v : Bool) : (s.setAmbig v).result = s.result := rfl
@[simp] theorem setAmbig_outLen (s : State) (v : Bool) : (s.setAmbig v).outLen = s.outLen := rfl
@[simp] theorem setAmbig_mem (s : State) (v : Bool) : (s.setAmbig v).mem = s.mem := rfl
@[simp] theorem setAmbig_pending (s : State) (v : Bool) : (s.setAmbig v).pending = s.pending := rfl
@[simp] theorem setAmbig_response (s : State) (v : Bool) : (s.setAmbig v).response = s.response := rfl

@[simp] theorem setResult_err (s : State) (v : Byte) : (s.setResult v).err = s.err := rfl
@[simp] theorem setResult_decErr (s : State) (v : Byte) : (s.setResult v).decErr = s.decErr := rfl
@[simp] theorem setResult_ambig (s : State) (v : Byte) : (s.setResult v).ambig = s.ambig := rfl
@[simp] theorem setResult_result (s : State) (v : Byte) : (s.setResult v).result = v := rfl
@[simp] theorem setResult_outLen (s : State) (v : Byte) : (s.setResult v).outLen = s.outLen := rfl
@[simp] theorem setResult_mem (s : State) (v : Byte) : (s.setResult v).mem = s.mem := rfl
@[simp] theorem setResult_pending (s : State) (v : Byte) : (s.setResult v).pending = s.pending := rfl
@[simp] theorem setResult_response (s : State) (v : Byte) : (s.setResult v).response = s.response := rfl

@[simp] theorem setOutLen_err (s : State) (v : Byte) : (s.setOutLen v).err = s.err := rfl
@[simp] theorem setOutLen_decErr (s : State) (v : Byte) : (s.setOutLen v).decErr = s.decErr := rfl
@[simp] theorem setOutLen_ambig (s : State) (v : Byte) : (s.setOutLen v).ambig = s.ambig := rfl
@[simp] theorem setOutLen_result (s : State) (v : Byte) : (s.setOutLen v).result = s.result := rfl
@[simp] theorem setOutLen_outLen (s : State) (v : Byte) : (s.setOutLen v).outLen = v := rfl
@[simp] theorem setOutLen_mem (s : State) (v : Byte) : (s.setOutLen v).mem = s.mem := rfl
@[simp] theorem setOutLen_pending (s : State) (v : Byte) : (s.setOutLen v).pending = s.pending := rfl
@[simp] theorem setOutLen_response (s : State) (v : Byte) : (s.setOutLen v).response = s.response := rfl

@[simp] theorem setMem_err (s : State) (v : Memory) : (s.setMem v).err = s.err := rfl
@[simp] theorem setMem_decErr (s : State) (v : Memory) : (s.setMem v).decErr = s.decErr := rfl
@[simp] theorem setMem_ambig (s : State) (v : Memory) : (s.setMem v).ambig = s.ambig := rfl
@[simp] theorem setMem_result (s : State) (v : Memory) : (s.setMem v).result = s.result := rfl
@[simp] theorem setMem_outLen (s : State) (v : Memory) : (s.setMem v).outLen = s.outLen := rfl
@[simp] theorem setMem_mem (s : State) (v : Memory) : (s.setMem v).mem = v := rfl
@[simp] theorem setMem_pending (s : State) (v : Memory) : (s.setMem v).pending = s.pending := rfl
@[simp] theorem setMem_response (s : State) (v : Memory) : (s.setMem v).response = s.response := rfl

@[simp] theorem setPending_err (s : State) (v : List Event) : (s.setPending v).err = s.err := rfl
@[simp] theorem setPending_decErr (s : State) (v : List Event) : (s.setPending v).decErr = s.decErr := rfl
@[simp] theorem setPending_ambig (s : State) (v : List Event) : (s.setPending v).ambig = s.ambig := rfl
@[simp] theorem setPending_result (s : State) (v : List Event) : (s.setPending v).result = s.result := rfl
@[simp] theorem setPending_outLen (s : State) (v : List Event) : (s.setPending v).outLen = s.outLen := rfl
@[simp] theorem setPending_mem (s : State) (v : List Event) : (s.setPending v).mem = s.mem := rfl
@[simp] theorem setPending_pending (s : State) (v : List Event) : (s.setPending v).pending = v := rfl
@[simp] theorem setPending_response (s : State) (v : List Event) : (s.setPending v).response = s.response := rfl

@[simp] theorem setResponse_err (s : State) (v : Response) : (s.setResponse v).err = s.err := rfl
@[simp] theorem setResponse_decErr (s : State) (v : Response) : (s.setResponse v).decErr = s.decErr := rfl
@[simp] theorem setResponse_ambig (s : State) (v : Response) : (s.setResponse v).ambig = s.ambig := rfl
@[simp] theorem setResponse_result (s : State) (v : Response) : (s.setResponse v).result = s.result := rfl
@[simp] theorem setResponse_outLen (s : State) (v : Response) : (s.setResponse v).outLen = s.outLen := rfl
@[simp] theorem setResponse_mem (s : State) (v : Response) : (s.setResponse v).mem = s.mem := rfl
@[simp] theorem setResponse_pending (s : State) (v : Response) : (s.setResponse v).pending = s.pending := rfl
@[simp] theorem setResponse_response (s : State) (v : Response) : (s.setResponse v).response = v := rfl

@[simp] theorem writeOut_err (s : State) (bs : List Byte) : (s.writeOut bs).err = s.err := rfl
@[simp] theorem writeOut_decErr (s : State) (bs : List Byte) : (s.writeOut bs).decErr = s.decErr := rfl
@[simp] theorem writeOut_ambig (s : State) (bs : List Byte) : (s.writeOut bs).ambig = s.ambig := rfl
@[simp] theorem writeOut_result (s : State) (bs : List Byte) : (s.writeOut bs).result = s.result := rfl
@[simp] theorem writeOut_outLen (s : State) (bs : List Byte) : (s.writeOut bs).outLen = s.outLen := rfl
@[simp] theorem writeOut_mem (s : State) (bs : List Byte) :
    (s.writeOut bs).mem = Memory.writeBytes s.mem Config.outBase bs := rfl
@[simp] theorem writeOut_pending (s : State) (bs : List Byte) : (s.writeOut bs).pending = s.pending := rfl
@[simp] theorem writeOut_response (s : State) (bs : List Byte) : (s.writeOut bs).response = s.response := rfl

@[simp] theorem fail_err (c : ErrCode) (s : State) : (fail c s).err = c.code := rfl
@[simp] theorem fail_decErr (c : ErrCode) (s : State) : (fail c s).decErr = s.decErr := rfl
@[simp] theorem fail_ambig (c : ErrCode) (s : State) : (fail c s).ambig = s.ambig := rfl
@[simp] theorem fail_result (c : ErrCode) (s : State) : (fail c s).result = s.result := rfl
@[simp] theorem fail_outLen (c : ErrCode) (s : State) : (fail c s).outLen = s.outLen := rfl
@[simp] theorem fail_mem (c : ErrCode) (s : State) : (fail c s).mem = s.mem := rfl
@[simp] theorem fail_pending (c : ErrCode) (s : State) : (fail c s).pending = s.pending := rfl
@[simp] theorem fail_response (c : ErrCode) (s : State) : (fail c s).response = s.response := rfl

end Sys2Proof.Machine
end

