-- ==== Sys2Proof/Laws/Memory.lean ====
section
/-! SUPPORT. Memory: what a read gives after a write, the canonical form every operation keeps, and that two canonical
memories which read alike are equal. -/

namespace Sys2Proof.Machine

@[simp] theorem Memory.read_nil (a : Nat) : Memory.read [] a = Memory.unlisted := rfl

@[simp] theorem Memory.read_cons (c : Host.Cell) (m : Memory) (a : Nat) :
    Memory.read (c :: m) a = if c.1 = a then c.2 else Memory.read m a := rfl

theorem Memory.read_of_not_listed (m : Memory) (a : Nat) (h : ∀ c ∈ m, c.1 ≠ a) :
    Memory.read m a = Memory.unlisted := by
  induction m with
  | nil => rfl
  | cons c m ih =>
    rw [Memory.read_cons, if_neg (h c List.mem_cons_self)]
    exact ih fun d hd => h d (List.mem_cons_of_mem c hd)

theorem Memory.read_erase_same (m : Memory) (a : Nat) : Memory.read (Memory.erase m a) a = Memory.unlisted :=
  Memory.read_of_not_listed _ _ fun c hc => by
    simpa using (List.mem_filter.mp hc).2

theorem Memory.read_erase_ne (m : Memory) (a a' : Nat) (h : a' ≠ a) :
    Memory.read (Memory.erase m a) a' = Memory.read m a' := by
  induction m with
  | nil => rfl
  | cons c m ih =>
    unfold Memory.erase at ih ⊢
    by_cases hc : c.1 = a
    · simp [hc, ih, Memory.read_cons]
      omega
    · simp [hc, ih, Memory.read_cons]

theorem Memory.read_insert_same (c : Host.Cell) (m : Memory) (h : ∀ d ∈ m, d.1 ≠ c.1) :
    Memory.read (Memory.insert c m) c.1 = c.2 := by
  induction m with
  | nil => simp [Memory.insert]
  | cons d m ih =>
    have hd := h d List.mem_cons_self
    have hm := ih fun e he => h e (List.mem_cons_of_mem d he)
    unfold Memory.insert
    split
    · simp
    · simp [hd, hm]

theorem Memory.read_insert_ne (c : Host.Cell) (m : Memory) (a : Nat) (h : a ≠ c.1) :
    Memory.read (Memory.insert c m) a = Memory.read m a := by
  induction m with
  | nil => simp [Memory.insert, Ne.symm h]
  | cons d m ih =>
    unfold Memory.insert
    split
    · simp [Ne.symm h]
    · simp [ih]

theorem Memory.erase_not_listed (m : Memory) (a : Nat) : ∀ c ∈ Memory.erase m a, c.1 ≠ a := fun c hc => by
  simpa using (List.mem_filter.mp hc).2

theorem Memory.read_write_same (m : Memory) (a : Nat) (b : Byte) : Memory.read (Memory.write m a b) a = b := by
  unfold Memory.write
  split
  · next hb => rw [Memory.read_erase_same, hb]
  · exact Memory.read_insert_same (a, b) _ (Memory.erase_not_listed m a)

theorem Memory.read_write_ne (m : Memory) (a a' : Nat) (b : Byte) (h : a' ≠ a) :
    Memory.read (Memory.write m a b) a' = Memory.read m a' := by
  unfold Memory.write
  split
  · exact Memory.read_erase_ne m a a' h
  · rw [Memory.read_insert_ne (a, b) _ a' h, Memory.read_erase_ne m a a' h]

/-- Reading after consecutive bytes are written: the written byte in their range, else the byte as before. -/
theorem Memory.read_writeBytes (bs : List Byte) : ∀ (m : Memory) (a a' : Nat),
    Memory.read (Memory.writeBytes m a bs) a' =
      if a ≤ a' ∧ a' < a + bs.length then bs.getD (a' - a) 0#8 else Memory.read m a' := by
  induction bs with
  | nil =>
    intro m a a'
    have h : ¬(a ≤ a' ∧ a' < a + ([] : List Byte).length) := by simp
    rw [if_neg h]; rfl
  | cons b bs ih =>
    intro m a a'
    rw [Memory.writeBytes, ih]
    by_cases h : a' = a
    · subst h
      have h1 : ¬(a' + 1 ≤ a' ∧ a' < a' + 1 + bs.length) := by omega
      have h2 : a' ≤ a' ∧ a' < a' + (b :: bs).length := by simp
      rw [if_neg h1, if_pos h2, Memory.read_write_same, Nat.sub_self, List.getD_cons_zero]
    · rw [Memory.read_write_ne _ _ _ _ h]
      by_cases h1 : a + 1 ≤ a' ∧ a' < a + 1 + bs.length
      · have h2 : a ≤ a' ∧ a' < a + (b :: bs).length := by simp only [List.length_cons]; omega
        have h3 : a' - a = (a' - (a + 1)) + 1 := by omega
        rw [if_pos h1, if_pos h2, h3, List.getD_cons_succ]
      · have h2 : ¬(a ≤ a' ∧ a' < a + (b :: bs).length) := by simp only [List.length_cons]; omega
        rw [if_neg h1, if_neg h2]

/-- The offsets that hold a byte of `IN` or `OUT` (R51). -/
theorem backed_iff (a : Nat) : backed a = true ↔ (0x100 ≤ a ∧ a < 0x1C0) ∨ (0x200 ≤ a ∧ a < 0x2C0) := by
  simp only [backed, Bool.or_eq_true, Bool.and_eq_true, decide_eq_true_eq]
  exact Iff.rfl

theorem Memory.insert_mem (c d : Host.Cell) (m : Memory) : d ∈ Memory.insert c m ↔ d = c ∨ d ∈ m := by
  induction m with
  | nil => simp [Memory.insert]
  | cons e m ih =>
    unfold Memory.insert
    split
    · simp
    · simp [ih]; tauto

theorem Memory.insert_sorted (c : Host.Cell) (m : Memory) (hs : m.Pairwise fun d e => d.1 < e.1)
    (hc : ∀ d ∈ m, d.1 ≠ c.1) : (Memory.insert c m).Pairwise fun d e => d.1 < e.1 := by
  induction m with
  | nil => simp [Memory.insert]
  | cons d m ih =>
    obtain ⟨hd, hm⟩ := List.pairwise_cons.mp hs
    have hne := hc d List.mem_cons_self
    unfold Memory.insert
    split
    · next hlt =>
      refine List.pairwise_cons.mpr ⟨fun e he => ?_, hs⟩
      rcases List.mem_cons.mp he with rfl | he
      · exact hlt
      · exact Nat.lt_trans hlt (hd e he)
    · next hlt =>
      refine List.pairwise_cons.mpr ⟨fun e he => ?_, ih hm fun e he => hc e (List.mem_cons_of_mem d he)⟩
      rcases (Memory.insert_mem c e m).mp he with rfl | he
      · omega
      · exact hd e he

/-- A byte written at an offset of `IN` or `OUT` keeps the canonical form. -/
theorem Memory.wf_write (m : Memory) (a : Nat) (b : Byte) (h : Memory.wf m) (ha : backed a = true) :
    Memory.wf (Memory.write m a b) := by
  obtain ⟨hs, hv⟩ := h
  have hes : (Memory.erase m a).Pairwise fun d e => d.1 < e.1 := hs.filter _
  have hev : ∀ c ∈ Memory.erase m a, c.2 ≠ Memory.unlisted ∧ backed c.1 = true := fun c hc =>
    hv c (List.mem_filter.mp hc).1
  unfold Memory.write
  split
  · exact ⟨hes, hev⟩
  · next hb =>
    refine ⟨Memory.insert_sorted _ _ hes (Memory.erase_not_listed m a), fun c hc => ?_⟩
    rcases (Memory.insert_mem _ c _).mp hc with rfl | hc
    · exact ⟨hb, ha⟩
    · exact hev c hc

/-- Consecutive bytes written at offsets of `IN` or `OUT` keep the canonical form. -/
theorem Memory.wf_writeBytes (bs : List Byte) : ∀ (m : Memory) (a : Nat), Memory.wf m →
    (∀ k < bs.length, backed (a + k) = true) → Memory.wf (Memory.writeBytes m a bs) := by
  induction bs with
  | nil => intro m a h _; exact h
  | cons b bs ih =>
    intro m a h hb
    refine ih _ _ (Memory.wf_write m a b h (hb 0 (by simp))) fun k hk => ?_
    have := hb (k + 1) (by simpa using hk)
    rwa [Nat.add_assoc, Nat.add_comm 1 k]

/-- A word written to `IN` or `OUT` keeps the canonical form. -/
theorem Memory.wf_writeWord (m : Memory) (a : Nat) (v : Word) (h : Memory.wf m)
    (hb : ∀ k < 4, backed (a + k) = true) : Memory.wf (Memory.writeWord m a v) :=
  Memory.wf_writeBytes _ m a h hb

theorem Memory.read_eq_of_mem (m : Memory) (hs : m.Pairwise fun c d => c.1 < d.1) (c : Host.Cell) (hc : c ∈ m) :
    Memory.read m c.1 = c.2 := by
  induction m with
  | nil => simp at hc
  | cons d m ih =>
    obtain ⟨hd, hm⟩ := List.pairwise_cons.mp hs
    rcases List.mem_cons.mp hc with rfl | hc
    · simp
    · have := hd c hc
      rw [Memory.read_cons, if_neg (by omega), ih hm hc]

theorem Memory.mem_iff_read (m : Memory) (h : Memory.wf m) (c : Host.Cell) :
    c ∈ m ↔ Memory.read m c.1 = c.2 ∧ c.2 ≠ Memory.unlisted := by
  constructor
  · intro hc
    exact ⟨Memory.read_eq_of_mem m h.1 c hc, (h.2 c hc).1⟩
  · rintro ⟨hr, hn⟩
    by_contra hc
    refine hn ?_
    rw [← hr]
    refine Memory.read_of_not_listed m c.1 fun d hd heq => hc ?_
    have hdr := Memory.read_eq_of_mem m h.1 d hd
    have : d = c := Prod.ext heq (by rw [← hdr, heq, hr])
    exact this ▸ hd

/-- Two canonical memories that read alike are the same data. -/
theorem Memory.eq_of_read (m m' : Memory) (h : Memory.wf m) (h' : Memory.wf m')
    (hr : ∀ a, Memory.read m a = Memory.read m' a) : m = m' := by
  have irrefl : ∀ c d : Host.Cell, c ∈ m → d ∈ m' → c.1 < d.1 → d.1 < c.1 → c = d := fun c d _ _ h1 h2 => by omega
  have nodup : ∀ n : Memory, Memory.wf n → n.Nodup := fun n hn => hn.1.imp fun {c d} hlt heq => by
    rw [heq] at hlt; omega
  have hp : m.Perm m' := (List.perm_ext_iff_of_nodup (nodup m h) (nodup m' h')).mpr fun c => by
    rw [Memory.mem_iff_read m h, Memory.mem_iff_read m' h', hr]
  exact hp.eq_of_pairwise irrefl h.1 h'.1

end Sys2Proof.Machine
end

