-- ==== Sys2Proof/Laws/Ops.lean ====
section
/-! SUPPORT. What the shared operations of the commands can do, said once. -/

namespace Sys2Proof.Machine

/-- A checked command always goes on: performed with `ERR` 0, or failed with its code and nothing else changed. -/
theorem runChecked_eq (c : ErrCode) (p : State → State) (s : State) :
    runChecked c p s = .next (if c = .ok then (p s).setErr 0#4 else fail c s) := by
  cases c <;> rfl

/-- If a checked command answers a next state, it was performed or it failed. -/
theorem runChecked_cases (c : ErrCode) (p : State → State) (s t : State) (h : runChecked c p s = .next t) :
    (c = .ok ∧ t = (p s).setErr 0#4) ∨ (c ≠ .ok ∧ t = fail c s) := by
  rw [runChecked_eq] at h
  injection h with h
  subst h
  by_cases hc : c = .ok
  · exact .inl ⟨hc, if_pos hc⟩
  · exact .inr ⟨hc, if_neg hc⟩

/-- Reading after `OUT` is written from its start: the written byte in range, else the byte as before. -/
theorem read_writeOut (s : State) (bs : List Byte) (a : Nat) :
    Memory.read (s.writeOut bs).mem a =
      if 0x200 ≤ a ∧ a < 0x200 + bs.length then byteAt bs (a - 0x200) else Memory.read s.mem a :=
  Memory.read_writeBytes bs s.mem 0x200 a

/-- A byte of `OUT` after `OUT` is written from its start. -/
theorem outByte_writeOut (s : State) (bs : List Byte) (k : Nat) :
    outByte (s.writeOut bs) k = if k < bs.length then byteAt bs k else outByte s k := by
  rw [outByte, read_writeOut, Nat.add_sub_cancel_left]
  by_cases h : k < bs.length
  · rw [if_pos h, if_pos ⟨Nat.le_add_right _ _, Nat.add_lt_add_left h _⟩]
  · rw [if_neg h, if_neg (fun hh => h (Nat.lt_of_add_lt_add_left hh.2))]; rfl

/-- Writing at most 192 bytes to `OUT` leaves `IN` alone. -/
theorem inByte_writeOut (s : State) (bs : List Byte) (k : Nat) (hk : k < 192) :
    inByte (s.writeOut bs) k = inByte s k := by
  rw [inByte, read_writeOut, if_neg (by simp only [Config.inBase]; omega)]; rfl

/-- Writing at most 192 bytes to `OUT` keeps memory canonical. -/
theorem wf_writeOut (s : State) (bs : List Byte) (h : Memory.wf s.mem) (hl : bs.length ≤ 192) :
    Memory.wf (s.writeOut bs).mem := by
  refine Memory.wf_writeBytes bs _ _ h fun k hk => ?_
  have : k < 192 := by omega
  simp [backed, this]

/-- A code is 0 exactly for success, and never above 3 (R170). -/
theorem code_eq_zero (c : ErrCode) : c.code = 0#4 ↔ c = .ok := by cases c <;> decide

theorem code_le_three (c : ErrCode) : c.code.toNat ≤ 3 := by cases c <;> decide

/-- The outcome of a command's checks: what each command's meaning checks, in one place for proofs. -/
def verdict : Instr → ErrCode
  | .nop f => checkNoOperand f
  | .encnib f => checkNibbleOperand f
  | .lookup f => checkByteOperand f
  | .xfwd f => checkBufferOperand 48#8 f
  | .xrev f => checkBufferOperand 48#8 f
  | .encode f => checkBufferOperand 48#8 f
  | .decode f => checkBufferOperand 192#8 f
  | .reserved7 _ => .opcode
  | .reservedHigh _ _ => .opcode

/-- What a command writes when its checks pass, apart from `ERR`. -/
def effect : Instr → State → State
  | .nop _, s => s
  | .encnib f, s => s.setResult (codeword (nibbleOperand f))
  | .lookup f, s => deliverEntry (reverseMap (byteOperand f)) s
  | .xfwd _, s => (s.writeOut (transpose (inBytes s 48))).setOutLen 48#8
  | .xrev _, s => (s.writeOut (untranspose (inBytes s 48))).setOutLen 48#8
  | .encode _, s => (s.writeOut (encodeBlock (inBytes s 48))).setOutLen 192#8
  | .decode _, s => ((s.writeOut (decodedMessage (inBytes s 192))).setDecErr (hasError (inBytes s 192))).setOutLen 48#8
  | .reserved7 _, s => s
  | .reservedHigh _ _, s => s

/-- Every command is its checks and its effect, run by the one shared operation. -/
theorem exec_eq (i : Instr) (s : State) : exec i s = runChecked (verdict i) (effect i) s := by cases i <;> rfl

/-- If a command answers a next state, it was performed or it failed. -/
theorem exec_cases (i : Instr) (s t : State) (h : exec i s = .next t) :
    (verdict i = .ok ∧ t = (effect i s).setErr 0#4) ∨ (verdict i ≠ .ok ∧ t = fail (verdict i) s) :=
  runChecked_cases _ _ _ _ (exec_eq i s ▸ h)

end Sys2Proof.Machine
end

