-- ==== Sys2Proof/Laws/Bus.lean ====
section
/-! SUPPORT. The window and the host port: what serving an access or an event can do, said once. -/

namespace Sys2Proof.Machine

theorem regionIn_row (r : MapRow) (rows : List MapRow) (off : Nat) (h : r.first ≤ off) :
    regionIn (r :: rows) off = if off ≤ r.last then r.region else regionIn rows off := by
  simp [regionIn, h]

theorem ite_step (c : Prop) [Decidable c] (x y z : Region) (h : ¬c → y = z) :
    (if c then x else y) = if c then x else z := by
  split
  · rfl
  · next hc => exact h hc

/-- The region of an offset by ranges (R51). -/
theorem regionOf_eq (off : Nat) : regionOf off =
    if off ≤ 0x003 then .id else if off ≤ 0x007 then .cmd else if off ≤ 0x00B then .status
    else if off ≤ 0x00F then .result else if off ≤ 0x013 then .outLen else if off ≤ 0x017 then .param
    else if off ≤ 0x0FF then .reserved else if off ≤ 0x1BF then .inBuf else if off ≤ 0x1FF then .reserved
    else if off ≤ 0x2BF then .outBuf else if off ≤ 0x2FF then .reserved else if off ≤ 0x30F then .codebookWindow
    else if off ≤ 0x3FF then .reserved else if off ≤ 0x4FF then .reverseMapWindow else .reserved := by
  unfold regionOf windowMap
  iterate 14
    rw [regionIn_row _ _ _ (by dsimp only at *; omega)]
    refine ite_step _ _ _ _ fun _ => ?_
  simp [regionIn]

theorem regionIn_mem (rows : List MapRow) (off : Nat) (r : Region) (hr : r ≠ .reserved) (h : regionIn rows off = r) :
    ∃ row ∈ rows, row.region = r ∧ row.first ≤ off ∧ off ≤ row.last := by
  induction rows with
  | nil => exact absurd h.symm hr
  | cons row rows ih =>
    unfold regionIn at h
    split at h
    · next hin => exact ⟨row, List.mem_cons_self, h, hin⟩
    · obtain ⟨q, hq, hrest⟩ := ih h
      exact ⟨q, List.mem_cons_of_mem row hq, hrest⟩

/-- The offsets of `CMD` (R51). -/
theorem regionOf_cmd_iff (off : Nat) : regionOf off = .cmd ↔ 0x004 ≤ off ∧ off ≤ 0x007 := by
  constructor
  · intro h
    obtain ⟨row, hrow, hr, hin⟩ := regionIn_mem windowMap off .cmd (by decide) h
    simp only [windowMap, List.mem_cons, List.not_mem_nil, or_false] at hrow
    rcases hrow with rfl | rfl | rfl | rfl | rfl | rfl | rfl | rfl | rfl | rfl | rfl | rfl | rfl | rfl | rfl
    all_goals first | exact hin | cases hr
  · intro h
    rw [regionOf_eq, if_neg (by omega), if_pos h.2]

/-- The offsets of `IN` (R51). -/
theorem regionOf_inBuf_iff (off : Nat) : regionOf off = .inBuf ↔ 0x100 ≤ off ∧ off ≤ 0x1BF := by
  constructor
  · intro h
    obtain ⟨row, hrow, hr, hin⟩ := regionIn_mem windowMap off .inBuf (by decide) h
    simp only [windowMap, List.mem_cons, List.not_mem_nil, or_false] at hrow
    rcases hrow with rfl | rfl | rfl | rfl | rfl | rfl | rfl | rfl | rfl | rfl | rfl | rfl | rfl | rfl | rfl
    all_goals first | exact hin | cases hr
  · intro h
    rw [regionOf_eq, if_neg (by omega), if_neg (by omega), if_neg (by omega), if_neg (by omega), if_neg (by omega),
      if_neg (by omega), if_neg (by omega), if_pos h.2]

/-- An access is admitted exactly under the three conditions of R54. -/
theorem admitted_iff (a : Access) : admitted a = true ↔ a.width = 32 ∧ a.off % 4 = 0 ∧ a.off < 4096 := by
  simp [admitted, and_assoc]

/-- What a write of an admitted word can do (R53, R56). -/
theorem writeWindow_cases (off : Nat) (v : Word) (s : State) :
    (regionOf off = .cmd ∧ writeWindow off v s = exec (decode v) s) ∨
    (regionOf off = .inBuf ∧
      writeWindow off v s = .next (s.setMem (Memory.writeWord s.mem (0x100 + 4 * ((off - 0x100) / 4)) v))) ∨
    (regionOf off ≠ .cmd ∧ regionOf off ≠ .inBuf ∧ writeWindow off v s = .next s) := by
  unfold writeWindow
  cases h : regionOf off <;> simp

/-- What serving an access can do (R52 to R54). -/
theorem serveAccess_cases (a : Access) (s : State) :
    (admitted a = false ∧ serveAccess a s = .next (s.setResponse .busError)) ∨
    (admitted a = true ∧ (a.kind = .read ∨ a.kind = .fetch) ∧
      serveAccess a s = .next (s.setResponse (.readData (readWindow s a.off)))) ∨
    (∃ v, admitted a = true ∧ a.kind = .write v ∧ serveAccess a s = writeWindow a.off v (s.setResponse .writeDone)) := by
  unfold serveAccess
  cases ha : admitted a
  · simp
  · cases hk : a.kind <;> simp

theorem inBytes_setPending (s : State) (es : List Event) (n : Nat) : inBytes (s.setPending es) n = inBytes s n := rfl

theorem writeOut_setPending (s : State) (es : List Event) (bs : List Byte) :
    (s.setPending es).writeOut bs = (s.writeOut bs).setPending es := rfl

/-- What a command performs neither looks at what is pending nor changes it. -/
theorem effect_setPending (i : Instr) (s : State) (es : List Event) :
    effect i (s.setPending es) = (effect i s).setPending es ∧ (effect i s).pending = s.pending := by
  cases i <;> refine ⟨?_, rfl⟩ <;> simp only [effect, inBytes_setPending, writeOut_setPending] <;> rfl

/-- A command neither looks at what is pending nor changes it. -/
theorem exec_pending (i : Instr) (s : State) : ∃ t, exec i s = .next t ∧ t.pending = s.pending ∧
    ∀ es, exec i (s.setPending es) = .next (t.setPending es) := by
  simp only [exec_eq, runChecked_eq]
  by_cases h : verdict i = .ok
  · simp only [if_pos h]
    exact ⟨_, rfl, (effect_setPending i s []).2, fun es => by rw [(effect_setPending i s es).1]; rfl⟩
  · simp only [if_neg h]
    exact ⟨_, rfl, rfl, fun es => rfl⟩

/-- Serving an event completes, and neither looks at the events still pending nor changes them (R58). -/
theorem serve_pending (e : Event) (s : State) : ∃ t, serve e s = .next t ∧ t.pending = s.pending ∧
    ∀ es, serve e (s.setPending es) = .next (t.setPending es) := by
  cases e with
  | reset => exact ⟨_, rfl, rfl, fun es => rfl⟩
  | resetDuringCommand w r => exact ⟨_, rfl, rfl, fun es => rfl⟩
  | access a =>
    simp only [serve, serveAccess]
    cases admitted a with
    | false => exact ⟨_, rfl, rfl, fun es => rfl⟩
    | true =>
      simp only [if_true]
      cases a.kind with
      | read => exact ⟨_, rfl, rfl, fun es => rfl⟩
      | fetch => exact ⟨_, rfl, rfl, fun es => rfl⟩
      | write v =>
        obtain ⟨t, h1, h2, h3⟩ := exec_pending (decode v) (s.setResponse .writeDone)
        simp only [writeWindow]
        cases regionOf a.off with
        | cmd => exact ⟨t, h1, h2, h3⟩
        | inBuf =>
          generalize Config.inBase + 4 * ((a.off - Config.inBase) / 4) = off
          exact ⟨_, rfl, rfl, fun es => rfl⟩
        | _ => exact ⟨_, rfl, rfl, fun es => rfl⟩

/-- A step with an event pending serves it (R58). -/
theorem step_cons (s : State) (e : Event) (rest : List Event) (h : s.pending = e :: rest) :
    step s = serve e (s.setPending rest) := by
  simp [step, serveNext, h]

/-- A step with nothing pending changes nothing. -/
theorem step_idle (s : State) (h : s.pending = []) : step s = .next s := by
  simp [step, serveNext, h]

end Sys2Proof.Machine
end

