-- ==== Sys2Proof/Laws/PerInstr.lean ====
section
/-! SUPPORT. Facts about the commands as written, one lemma per constructor: the word of a well-formed command matches
its row of spec/opcode_table.json. -/

namespace Sys2Proof.Laws

/-- The `mask` of a command's row of the opcode table. -/
def rowMask : Instr → Word
  | .nop _ => 0xFFFFFFFF#32
  | .encnib _ => 0xFFFFF0FF#32
  | .lookup _ => 0xFFFF00FF#32
  | .xfwd _ => 0xFFFFFFFF#32
  | .xrev _ => 0xFFFFFFFF#32
  | .encode _ => 0xFFFFFFFF#32
  | .decode _ => 0xFFFFFFFF#32
  | .reserved7 _ => 0x0000000F#32
  | .reservedHigh _ _ => 0x00000008#32

/-- The `match` of a command's row of the opcode table. -/
def rowMatch : Instr → Word
  | .nop _ => 0x00000000#32
  | .encnib _ => 0x00000001#32
  | .lookup _ => 0x00000002#32
  | .xfwd _ => 0x30000003#32
  | .xrev _ => 0x30000004#32
  | .encode _ => 0x30000005#32
  | .decode _ => 0xC0000006#32
  | .reserved7 _ => 0x00000007#32
  | .reservedHigh _ _ => 0x00000008#32

/-- A well-formed command's word matches its row. -/
def RowMatches.Statement (i : Instr) : Prop := i.wf = true → encode i &&& rowMask i = rowMatch i

theorem packWord_bit (op : BitVec 4) (f : Fields) (k : Nat) (hk : k < 32) : (packWord op f).getLsbD k =
    if k < 4 then op.getLsbD k else if k < 8 then f.rsv0.getLsbD (k - 4) else if k < 16 then f.arg.getLsbD (k - 8)
    else if k < 24 then f.rsv1.getLsbD (k - 16) else f.len.getLsbD (k - 24) := by
  unfold packWord
  simp only [BitVec.getLsbD_append]
  repeat' split
  all_goals first | rfl | omega

/-- A command with only its length set has these fields. -/
theorem fields_eq (f : Fields) (l : Byte) (h : (f.reservedClear && f.arg == 0#8 && f.len == l) = true) :
    f = { rsv0 := 0#4, arg := 0#8, rsv1 := 0#8, len := l } := by
  rcases f with ⟨r0, a, r1, l'⟩
  simp only [Fields.reservedClear, Bool.and_eq_true, beq_iff_eq] at h
  obtain ⟨⟨⟨rfl, rfl⟩, rfl⟩, rfl⟩ := h
  rfl

theorem RowMatches.nop (f : Fields) : RowMatches.Statement (.nop f) := fun h => by
  rw [fields_eq f _ h]; decide

theorem RowMatches.xfwd (f : Fields) : RowMatches.Statement (.xfwd f) := fun h => by
  rw [fields_eq f _ h]; decide

theorem RowMatches.xrev (f : Fields) : RowMatches.Statement (.xrev f) := fun h => by
  rw [fields_eq f _ h]; decide

theorem RowMatches.encode (f : Fields) : RowMatches.Statement (.encode f) := fun h => by
  rw [fields_eq f _ h]; decide

theorem RowMatches.decode (f : Fields) : RowMatches.Statement (.decode f) := fun h => by
  rw [fields_eq f _ h]; decide

theorem RowMatches.lookup (f : Fields) : RowMatches.Statement (.lookup f) := by
  rcases f with ⟨r0, a, r1, l⟩
  intro h
  simp only [Instr.wf, Fields.reservedClear, Bool.and_eq_true, beq_iff_eq] at h
  obtain ⟨⟨rfl, rfl⟩, rfl⟩ := h
  revert a
  decide +kernel

theorem RowMatches.encnib (f : Fields) : RowMatches.Statement (.encnib f) := by
  rcases f with ⟨r0, a, r1, l⟩
  intro h
  simp only [Instr.wf, Fields.reservedClear, Bool.and_eq_true, beq_iff_eq] at h
  obtain ⟨⟨⟨rfl, rfl⟩, ha⟩, rfl⟩ := h
  revert a
  decide +kernel

theorem low_mask_bits : ∀ k < 32, ¬k < 4 → (0x0000000F#32).getLsbD k = false ∧ (0x00000007#32).getLsbD k = false := by
  decide

theorem bit_three_mask_bits : ∀ k < 32, ¬k = 3 → (0x00000008#32).getLsbD k = false := by decide

theorem RowMatches.reserved7 (f : Fields) : RowMatches.Statement (.reserved7 f) := by
  intro _
  refine BitVec.eq_of_getLsbD_eq fun k hk => ?_
  rw [BitVec.getLsbD_and, Sys2Proof.encode, packWord_bit _ _ _ hk]
  simp only [Instr.opcode, rowMask, rowMatch]
  by_cases h4 : k < 4
  · rw [if_pos h4]
    obtain rfl | rfl | rfl | rfl : k = 0 ∨ k = 1 ∨ k = 2 ∨ k = 3 := by omega
    all_goals decide
  · rw [(low_mask_bits k hk h4).1, (low_mask_bits k hk h4).2, Bool.and_false]

theorem RowMatches.reservedHigh (low : BitVec 3) (f : Fields) : RowMatches.Statement (.reservedHigh low f) := by
  intro hw
  clear hw
  refine BitVec.eq_of_getLsbD_eq fun k hk => ?_
  rw [BitVec.getLsbD_and, Sys2Proof.encode, packWord_bit _ _ _ hk]
  simp only [Instr.opcode, rowMask, rowMatch]
  by_cases h3 : k = 3
  · subst h3
    rw [if_pos (by decide)]
    revert low; decide
  · rw [bit_three_mask_bits k hk h3, Bool.and_false]

end Sys2Proof.Laws
end

