-- ==== Sys2Proof/Tests/Slice0.lean ====
section
/-! SUPPORT. Small tests of the model, with expected results taken from 95_test_vectors.md (E, V and P entries) and from
the rules named, and one witness per statement that has hypotheses: a concrete state and operands that meet them. -/

namespace Sys2Proof.Tests

open Sys2Proof.Machine

-- One theorem after another: each theorem checked at the same time would hold a stack of its own.
set_option Elab.async false

/-! ### Helpers -/

/-- The fields of a command word, in the order of the word's low to high bits. -/
def flds (rsv0 : BitVec 4) (arg rsv1 len : Byte) : Fields := { rsv0 := rsv0, arg := arg, rsv1 := rsv1, len := len }

/-- The reset state with bytes at the start of `IN`. -/
def withIn (bs : List Byte) : State := State.reset.setMem (Memory.writeBytes [] 0x100 bs)

/-- The state after the command word `w`, in one step. -/
def after (w : Word) (s : State) : State := (nextOf (exec (decode w) s)).getD s

/-- A state with one host access pending. -/
def facing (a : Access) (s : State) : State := s.setPending [.access a]

/-- The state after the one pending event. -/
def stepped (s : State) : State := (nextOf (step s)).getD s

/-- The premise the statements about buffer commands have on a command's fields. -/
abbrev legal (f : Fields) (len : Byte) : Prop := f.rsv0 = 0#4 ∧ f.rsv1 = 0#8 ∧ f.arg = 0#8 ∧ f.len = len

/-- A sequence of 48 zero bytes but for one. -/
def oneByte (i : Nat) (b : Byte) : List Byte := (List.range 48).map fun k => if k = i then b else 0#8

/-! ### Encoding -/

theorem test_wf_accepts_legal_commands :
    (Instr.nop (flds 0 0 0 0)).wf = true ∧ (Instr.encnib (flds 0 0x0F 0 0)).wf = true ∧
    (Instr.lookup (flds 0 0xFF 0 0)).wf = true ∧ (Instr.xfwd (flds 0 0 0 48)).wf = true ∧
    (Instr.xrev (flds 0 0 0 48)).wf = true ∧ (Instr.encode (flds 0 0 0 48)).wf = true ∧
    (Instr.decode (flds 0 0 0 192)).wf = true ∧ (Instr.reserved7 (flds 1 2 3 4)).wf = true ∧
    (Instr.reservedHigh 5 (flds 1 2 3 4)).wf = true := by decide

theorem test_wf_refuses_ill_formed_nop :
    (Instr.nop (flds 1 0 0 0)).wf = false ∧ (Instr.nop (flds 0 1 0 0)).wf = false ∧
    (Instr.nop (flds 0 0 1 0)).wf = false ∧ (Instr.nop (flds 0 0 0 1)).wf = false := by decide

theorem test_wf_refuses_ill_formed_encnib :
    (Instr.encnib (flds 1 0 0 0)).wf = false ∧ (Instr.encnib (flds 0 0x10 0 0)).wf = false ∧
    (Instr.encnib (flds 0 0 1 0)).wf = false ∧ (Instr.encnib (flds 0 0 0 1)).wf = false := by decide

theorem test_wf_refuses_ill_formed_lookup :
    (Instr.lookup (flds 1 0 0 0)).wf = false ∧ (Instr.lookup (flds 0 0 1 0)).wf = false ∧
    (Instr.lookup (flds 0 0 0 48)).wf = false := by decide

theorem test_wf_refuses_ill_formed_xfwd :
    (Instr.xfwd (flds 1 0 0 48)).wf = false ∧ (Instr.xfwd (flds 0 1 0 48)).wf = false ∧
    (Instr.xfwd (flds 0 0 1 48)).wf = false ∧ (Instr.xfwd (flds 0 0 0 47)).wf = false := by decide

theorem test_wf_refuses_ill_formed_xrev :
    (Instr.xrev (flds 1 0 0 48)).wf = false ∧ (Instr.xrev (flds 0 1 0 48)).wf = false ∧
    (Instr.xrev (flds 0 0 1 48)).wf = false ∧ (Instr.xrev (flds 0 0 0 192)).wf = false := by decide

theorem test_wf_refuses_ill_formed_encode :
    (Instr.encode (flds 1 0 0 48)).wf = false ∧ (Instr.encode (flds 0 1 0 48)).wf = false ∧
    (Instr.encode (flds 0 0 1 48)).wf = false ∧ (Instr.encode (flds 0 0 0 0)).wf = false := by decide

theorem test_wf_refuses_ill_formed_decode :
    (Instr.decode (flds 1 0 0 192)).wf = false ∧ (Instr.decode (flds 0 1 0 192)).wf = false ∧
    (Instr.decode (flds 0 0 1 192)).wf = false ∧ (Instr.decode (flds 0 0 0 48)).wf = false := by decide

/-- Words written out from the format of R70 and the map of R72, one per constructor. -/
theorem test_decodes_written_out_words :
    decode 0b00000000000000000000000000000000#32 = .nop (flds 0 0 0 0) ∧
    decode 0b00000000000000000000010100000001#32 = .encnib (flds 0 5 0 0) ∧
    decode 0b00000000000000001010101100000010#32 = .lookup (flds 0 0xAB 0 0) ∧
    decode 0b00110000000000000000000000000011#32 = .xfwd (flds 0 0 0 48) ∧
    decode 0b00110000000000000000000000000100#32 = .xrev (flds 0 0 0 48) ∧
    decode 0b00110000000000000000000000000101#32 = .encode (flds 0 0 0 48) ∧
    decode 0b11000000000000000000000000000110#32 = .decode (flds 0 0 0 192) ∧
    decode 0b00000001001000110100010101100111#32 = .reserved7 (flds 6 0x45 0x23 1) ∧
    decode 0b11111111111111111111111111111000#32 = .reservedHigh 0 (flds 0xF 0xFF 0xFF 0xFF) ∧
    decode 0b00000000000000000000000000001111#32 = .reservedHigh 7 (flds 0 0 0 0) := by decide

/-- The words of R77's lines. -/
theorem test_encodes_to_table_words :
    encode (.encnib (flds 0 9 0 0)) = 0x00000901#32 ∧ encode (.lookup (flds 0 0xDB 0 0)) = 0x0000DB02#32 ∧
    encode (.encode (flds 0 0 0 47)) = 0x2F000005#32 ∧ encode (.decode (flds 0 0 1 192)) = 0xC0010006#32 ∧
    encode (.reservedHigh 7 (flds 0 0 0 0)) = 0x0000000F#32 := by decide

theorem test_decode_table_word :
    decodeTableWord 32 0xC0000006 = some (.decode (flds 0 0 0 192)) ∧
    decodeTableWord 8 0x07 = some (.reserved7 (flds 0 0 0 0)) ∧ decodeTableWord 40 0 = none := by decide

theorem test_decode_rejects_other_lengths :
    decodeBytes [] = .error .notOneWord ∧ decodeBytes [0x03#8, 0x00#8, 0x00#8] = .error .notOneWord ∧
    decodeBytes [0x03#8, 0x00#8, 0x00#8, 0x30#8] = .ok (.xfwd (flds 0 0 0 48)) ∧
    decodeBytes [0#8, 0#8, 0#8, 0#8, 0#8] = .error .notOneWord := ⟨rfl, rfl, rfl, rfl⟩

/-- Lines of P3 and of R77, with operands in and out of range. -/
theorem test_assembles_lines_of_text :
    assembleText ['E', 'N', 'C', 'N', 'I', 'B', ' ', '9'] = some 0x00000901#32 ∧
    assembleText ['l', 'o', 'o', 'k', 'u', 'p', ' ', '0', 'x', 'A', 'B'] = some 0x0000AB02#32 ∧
    assembleText ['E', 'N', 'C', 'O', 'D', 'E', ' ', 'l', 'e', 'n', '=', '4', '7'] = some 0x2F000005#32 ∧
    assembleText ['D', 'E', 'C', 'O', 'D', 'E'] = some 0xC0000006#32 ∧
    assembleText ['.', 'c', 'm', 'd', ' ', '0', 'x', '1', '0', '0', '1'] = some 0x00001001#32 ∧
    assembleText ['E', 'N', 'C', 'N', 'I', 'B', ' ', '1', '6'] = none := by decide +kernel

/-! ### Commands, one step each -/

/-- V8: `NOP` after `STATUS` 0x12 leaves 0x10. -/
theorem test_nop_clears_err_only :
    statusWord (after 0x00000000#32 { State.reset with err := 2#4, decErr := true }) = 0x10#32 := by decide +kernel

/-- V1, and its corner case 0x1001, which leaves `RESULT`. -/
theorem test_encnib_codeword :
    (after 0x00000501#32 State.reset).result = 0x30#8 ∧ (after 0x00000F01#32 State.reset).result = 0xC0#8 := by
  decide +kernel

theorem test_encnib_operand_above_15_fails :
    after 0x00001001#32 { State.reset with result := 0x66#8 } = { State.reset with result := 0x66#8, err := 3#4 } := by
  decide +kernel

/-- V2: an ambiguous byte and bytes one and two bits from a codeword. -/
theorem test_lookup_ambiguous_byte :
    after 0x00000002#32 State.reset = { State.reset with result := 16#8, ambig := true } := by decide +kernel

theorem test_lookup_nearest_codeword :
    after 0x0000AB02#32 { State.reset with ambig := true } = { State.reset with result := 14#8 } ∧
    (after 0x0000FF02#32 State.reset).result = 6#8 := by decide +kernel

/-- V3: byte 9 bit 2 goes to byte 13 bit 1. -/
theorem test_xfwd_moves_bit :
    outByte (after 0x30000003#32 (withIn (oneByte 9 0x04#8))) 13 = 0x02#8 ∧
    outByte (after 0x30000003#32 (withIn (oneByte 1 0x80#8))) 42 = 0x02#8 := by decide +kernel

/-- V3: `XFWD` of 00 01 ... 2F, some bytes. -/
theorem test_xfwd_of_counting_bytes :
    let t := after 0x30000003#32 (withIn ((List.range 48).map fun k => BitVec.ofNat 8 k))
    outByte t 0 = 0xAA#8 ∧ outByte t 6 = 0xCC#8 ∧ outByte t 18 = 0x00#8 ∧ outByte t 19 = 0xFF#8 ∧ t.outLen = 48#8 := by
  decide +kernel

/-- V3: byte 6 bit 0 comes back to byte 0 bit 1. -/
theorem test_xrev_moves_bit :
    outByte (after 0x30000004#32 (withIn (oneByte 6 0x01#8))) 0 = 0x02#8 ∧
    outByte (after 0x30000004#32 (withIn (oneByte 13 0x02#8))) 9 = 0x04#8 := by decide +kernel

/-- V3: `XREV` of 00 01 ... 2F, some bytes. -/
theorem test_xrev_of_counting_bytes :
    let t := after 0x30000004#32 (withIn ((List.range 48).map fun k => BitVec.ofNat 8 k))
    outByte t 1 = 0xAA#8 ∧ outByte t 2 = 0x66#8 ∧ outByte t 17 = 0x55#8 ∧ outByte t 47 = 0x00#8 := by decide +kernel

/-- V4: the message 5A 00 ... 00. -/
theorem test_encode_first_byte :
    let t := after 0x30000005#32 (withIn [0x5A#8])
    outByte t 0 = 0xFE#8 ∧ outByte t 12 = 0xFF#8 ∧ outByte t 84 = 0x01#8 ∧ outByte t 96 = 0x01#8 ∧
    outByte t 108 = 0x00#8 ∧ outByte t 156 = 0x01#8 ∧ t.outLen = 192#8 := by decide +kernel

/-- V4: 48 bytes 0x96, the high nibble 9 and the low nibble 6 in their own planes. -/
theorem test_encode_both_halves :
    let t := after 0x30000005#32 (withIn (List.replicate 48 0x96#8))
    outByte t 0 = 0x00#8 ∧ outByte t 12 = 0xFF#8 ∧ outByte t 144 = 0xFF#8 ∧ outByte t 156 = 0x00#8 := by decide +kernel

/-- V5: the all-zero block has every half unresolved. -/
theorem test_decode_all_zero_block :
    let t := after 0xC0000006#32 State.reset
    t.decErr = true ∧ t.err = 0#4 ∧ t.outLen = 48#8 ∧ outByte t 0 = 0x00#8 := by decide +kernel

/-- V5, last row: an undetected miscorrection of the low half. -/
theorem test_decode_miscorrects_undetected :
    let b := encodeBlock (oneByte 0 0x5A#8)
    let e := (List.range 192).map fun p => if p ∈ [12, 18, 36, 90] then byteAt b p ^^^ 0x01#8 else byteAt b p
    byteAt (decodedMessage e) 0 = 0x57#8 ∧ hasError e = false := by decide +kernel

/-- V6: reserved opcodes with other bits clear and set. -/
theorem test_reserved_opcodes :
    (after 0x00000007#32 State.reset).err = 2#4 ∧ (after 0x0000000F#32 State.reset).err = 2#4 ∧
    (after 0xFFFFFFF8#32 State.reset).err = 2#4 := by decide +kernel

/-- V6: the codes of failing words, the reserved check before the length check. -/
theorem test_error_priority :
    (after 0x00000010#32 State.reset).err = 3#4 ∧ (after 0x30000002#32 State.reset).err = 3#4 ∧
    (after 0x2F000003#32 State.reset).err = 1#4 ∧ (after 0xC0000004#32 State.reset).err = 1#4 ∧
    (after 0x00000105#32 State.reset).err = 3#4 ∧ (after 0x30000006#32 State.reset).err = 1#4 := by decide +kernel

/-! ### Tables -/

/-- R114. -/
theorem test_codeword_popcounts :
    codebook.map popcount = [2, 2, 3, 3, 3, 2, 6, 3, 4, 4, 4, 5, 5, 5, 4, 2] := by decide +kernel

/-- R116: the ambiguous bytes. -/
theorem test_ambiguous_bytes :
    (List.range 256).filter (fun v => (reverseMap (BitVec.ofNat 8 v)).toNat == 16) =
      [0x00, 0x1A, 0x22, 0x28, 0x2B, 0x2E, 0x3A, 0x41, 0x44, 0x47, 0x4D, 0x4F, 0x50, 0x52, 0x58, 0x5B, 0x5E, 0x5F,
       0x60, 0x6F, 0x7A, 0x81, 0x82, 0x84, 0x85, 0x86, 0x88, 0x89, 0x90, 0x97, 0x9B, 0x9D, 0x9E, 0xA0, 0xA3, 0xA6,
       0xA7, 0xA9, 0xAC, 0xAD, 0xB2, 0xB8, 0xBB, 0xBE, 0xC3, 0xC5, 0xC6, 0xC9, 0xCB, 0xCC, 0xCE, 0xD1, 0xD4, 0xDB,
       0xDE, 0xE1, 0xE2, 0xE4, 0xE8, 0xEB, 0xEE, 0xF0] := by decide +kernel

/-! ### The window and the bus -/

/-- V7: reads from the reset state. -/
theorem test_window_reads :
    readWindow State.reset 0x000 = 0x51430701#32 ∧ readWindow State.reset 0x014 = 0x6310C030#32 ∧
    readWindow State.reset 0x300 = 0x19160C03#32 ∧ readWindow State.reset 0x30C = 0xC0AA8F7C#32 ∧
    readWindow State.reset 0x400 = 0x00000010#32 ∧ readWindow State.reset 0x404 = 0x00020401#32 ∧
    readWindow State.reset 0x4FC = 0x060C0C0C#32 ∧ readWindow State.reset 0xFFC = 0#32 := by decide +kernel

/-- V7: `WR 0x100, 0x44332211`, one step, and what its word and bytes then read. -/
theorem test_in_write :
    let t := stepped (facing (wordAccess (.write 0x44332211#32) 0x100) State.reset)
    readWindow t 0x100 = 0x44332211#32 ∧ inByte t 0 = 0x11#8 ∧ inByte t 3 = 0x44#8 ∧ t.response = .writeDone := by
  decide +kernel

/-- V7: writes that are ignored. -/
theorem test_ignored_write :
    stepped (facing (wordAccess (.write 0xFFFFFFFF#32) 0x200) State.reset) =
      State.reset.setResponse .writeDone := by decide +kernel

/-- V7: narrow and misaligned accesses. -/
theorem test_bus_errors :
    stepped (facing { wordAccess .read 0x000 with width := 8 } State.reset) = State.reset.setResponse .busError ∧
    stepped (facing { wordAccess (.write 0#32) 0x004 with width := 16 } State.reset) =
      State.reset.setResponse .busError ∧
    stepped (facing (wordAccess .read 0x102) State.reset) = State.reset.setResponse .busError ∧
    stepped (facing (wordAccess (.write 0x30000005#32) 0x006) State.reset) =
      State.reset.setResponse .busError := by decide +kernel

/-- The step after `withFetchWord` runs the word. -/
theorem test_fetch_word_runs :
    stepped (State.reset.withFetchWord 32 0x00000901) =
      { State.reset with result := 0x66#8, response := .writeDone } := by decide +kernel

/-- P3, its first lines, in the notation of R78. -/
theorem test_host_program :
    (runProgram [.issue (.lookup 0), .rd 0x00C 0x10#32, .rd 0x008 0x20#32] State.reset).isSome = true ∧
    (runProgram [.rd 0x300 0#32] State.reset).isSome = false := by decide +kernel

/-- V8: reset during a held command. -/
theorem test_reset_during_command :
    stepped (State.setPending { State.reset with err := 3#4, outLen := 48#8 }
      [.resetDuringCommand 0x30000005#32 .busError]) = State.reset.setResponse .busError := by decide +kernel

/-! ### Witnesses: states and operands that meet a statement's hypotheses, at the edges of their ranges -/

/-- An outcome that goes on is the next state it gives. -/
theorem next_of_isSome (o : Host.Outcome State Fault Refusal) (s : State) (h : (nextOf o).isSome = true) :
    o = .next ((nextOf o).getD s) := by
  cases o with
  | next t => rfl
  | fault r => cases h
  | refused r => cases h

theorem witness_WellFormedWordsAreTableRows :
    (decode 0x00000F01#32).wf = true ∧ (decode 0x00001001#32).wf = false ∧ (decode 0x0000FF02#32).wf = true ∧
    (decode 0x2F000003#32).wf = false ∧ (decode 0xFFFFFFF7#32).wf = true ∧ (decode 0x00000008#32).wf = true := by decide

theorem witness_AssemblerSpellsCommandWords :
    assemble (.encnib 15) = some 0x00000F01#32 ∧ assemble (.encnib 16) = none ∧
    assemble (.lookup 255) = some 0x0000FF02#32 ∧ assemble (.lookup 256) = none ∧
    assemble (.decode (some 255)) = some 0xFF000006#32 ∧ assemble (.xfwd (some 0)) = some 0x00000003#32 := by decide

theorem witness_StepRunsDecodedCommand :
    let a := wordAccess (.write 0xC0000006#32) 0x004
    (facing a State.reset).pending = .access a :: [] ∧ a.kind = .write 0xC0000006#32 ∧ a.width = 32 ∧
    a.off = 0x004 := by decide

/-- One word of every outcome of `CommandWordOutcomeByClass`, at the edges of its fields. -/
theorem witness_CommandWordOutcomeByClass :
    [0x00000007#32, 0xFFFFFFFF#32, 0x00000010#32, 0x00800006#32, 0x00000000#32, 0x00000100#32, 0x00000F01#32,
      0x00001001#32, 0x0000FF02#32, 0xFF000002#32, 0x30000103#32, 0x31000003#32, 0x30000004#32, 0xC0000006#32,
      0xBF000006#32].map (fun w => (after w State.reset).err) =
    [2#4, 2#4, 3#4, 3#4, 0#4, 3#4, 0#4, 3#4, 0#4, 3#4, 3#4, 1#4, 0#4, 0#4, 1#4] := by decide +kernel

/-- Fields each clause of the per-command statements is about: legal, with a reserved field set, with a wrong length. -/
theorem witness_command_fields :
    (let f := flds 0 0 0 0; f.rsv0 = 0#4 ∧ f.rsv1 = 0#8 ∧ f.arg = 0#8 ∧ f.len = 0#8) ∧
    (let f := flds 0 0 0 1; ¬(f.rsv0 = 0#4 ∧ f.rsv1 = 0#8 ∧ f.arg = 0#8 ∧ f.len = 0#8)) ∧
    (let f := flds 0 15 0 0; f.rsv0 = 0#4 ∧ f.rsv1 = 0#8 ∧ f.arg.toNat < 16 ∧ f.len = 0#8) ∧
    (let f := flds 0 16 0 0; ¬(f.rsv0 = 0#4 ∧ f.rsv1 = 0#8 ∧ f.arg.toNat < 16 ∧ f.len = 0#8)) ∧
    (let f := flds 0 255 0 0; f.rsv0 = 0#4 ∧ f.rsv1 = 0#8 ∧ f.len = 0#8) ∧
    (let f := flds 0 0 128 0; ¬(f.rsv0 = 0#4 ∧ f.rsv1 = 0#8 ∧ f.len = 0#8)) ∧
    (let f := flds 0 0 0 48; f.rsv0 = 0#4 ∧ f.rsv1 = 0#8 ∧ f.arg = 0#8 ∧ f.len = 48#8) ∧
    (let f := flds 8 0 0 48; f.rsv0 ≠ 0#4 ∨ f.rsv1 ≠ 0#8 ∨ f.arg ≠ 0#8) ∧
    (let f := flds 0 0 0 49; f.rsv0 = 0#4 ∧ f.rsv1 = 0#8 ∧ f.arg = 0#8 ∧ f.len ≠ 48#8) ∧
    (let f := flds 0 0 0 192; f.rsv0 = 0#4 ∧ f.rsv1 = 0#8 ∧ f.arg = 0#8 ∧ f.len = 192#8) ∧
    (let f := flds 0 0 0 191; f.rsv0 = 0#4 ∧ f.rsv1 = 0#8 ∧ f.arg = 0#8 ∧ f.len ≠ 192#8) := by decide

theorem witness_NopClearsErrOnly : ∀ s : State, exec (.nop (flds 0 0 0 0)) s = .next { s with err := 0#4 } :=
  fun _ => rfl

/-- The last clause of `XrevReverseTransposesInput`: the host copies `OUT` into `IN`. -/
theorem witness_XrevReverseTransposesInput :
    legal (flds 0 0 0 48) 48#8 ∧
    exec (.xfwd (flds 0 0 0 48)) (withIn [0x01#8]) = .next (after 0x30000003#32 (withIn [0x01#8])) ∧
    ∀ k < 48, inByte (withIn [0x01#8]) k = outByte (after 0x30000003#32 (withIn [0x01#8])) k :=
  ⟨by decide, next_of_isSome _ _ (by decide +kernel), by decide +kernel⟩

theorem witness_ReservedOpcodesFail :
    7 ≤ ((0x00000007#32).extractLsb' 0 4).toNat ∧ 7 ≤ ((0xFFFFFFFF#32).extractLsb' 0 4).toNat := by decide

theorem witness_ErrTellsSuccessAndFailureIsPrecise :
    (after 0x2F000003#32 State.reset).err ≠ 0#4 ∧ (after 0x00000000#32 State.reset).err = 0#4 := by decide +kernel

/-- `CommandsWriteOnlyTheirOutputBytes`: the first bytes past what `ENCODE` and the 48-byte commands write. -/
theorem witness_CommandsWriteOnlyTheirOutputBytes :
    exec (.encode (flds 0 0 0 48)) State.reset = .next (after 0x30000005#32 State.reset) ∧
    ¬(0x200 ≤ 0x2C0 ∧ 0x2C0 < 0x200 + 192) ∧ ¬(0x200 ≤ 0x230 ∧ 0x230 < 0x200 + 48) :=
  ⟨next_of_isSome _ _ (by decide +kernel), by decide⟩

theorem witness_CommandTwiceIsCommandOnce :
    Memory.wf (withIn [0x5A#8]).mem ∧
    exec (.encode (flds 0 0 0 48)) (withIn [0x5A#8]) = .next (after 0x30000005#32 (withIn [0x5A#8])) :=
  ⟨by decide +kernel, next_of_isSome _ _ (by decide +kernel)⟩

theorem witness_CommandsReadOnlyIn :
    let s := State.reset
    let s' := { State.reset with result := 7#8, ambig := true, mem := [(0x2BF, 0x11#8)] }
    (∀ k < 192, inByte s k = inByte s' k) ∧ exec (.xfwd (flds 0 0 0 48)) s = .next (after 0x30000003#32 s) ∧
    exec (.xfwd (flds 0 0 0 48)) s' = .next (after 0x30000003#32 s') :=
  ⟨by decide +kernel, next_of_isSome _ _ (by decide +kernel), next_of_isSome _ _ (by decide +kernel)⟩

/-- A state with each field at an edge of what the invariant allows, about to take a step. -/
def edgeState : State :=
  { err := 3#4
    decErr := true
    ambig := true
    result := 16#8
    outLen := 192#8
    mem := [(0x100, 0xFF#8), (0x1BF, 0x01#8), (0x2BF, 0x80#8)]
    pending := [commandWrite 0xC0000006#32]
    response := .none }

theorem witness_StepKeepsInvariant : Inv edgeState ∧ step edgeState = .next (stepped edgeState) :=
  ⟨by decide +kernel, next_of_isSome _ _ (by decide +kernel)⟩

/-- The reset state about to run a command. -/
def about (w : Word) : State := State.reset.setPending [commandWrite w]

theorem about_goes_on (w : Word) : (nextOf (step (about w))).isSome = true := by
  have h : step (about w) = exec (decode w) ((about w).setPending [] |>.setResponse .writeDone) := by
    have ha : admitted (wordAccess (.write w) 0x004) = true := by simp [admitted, wordAccess, Config.windowSize]
    have hr : regionOf 0x004 = .cmd := by decide
    rw [step_cons (about w) _ [] rfl, commandWrite, serve, serveAccess, ha]
    simp only [wordAccess, if_true, writeWindow, hr]
  rw [h, exec_eq, runChecked_eq]
  rfl

/-- `FieldsHaveTheirWriters`: for each field a step that changes it. -/
theorem witness_FieldsHaveTheirWriters (w : Word) :
    (about w).pending = commandWrite w :: [] ∧ step (about w) = .next (stepped (about w)) ∧
    assertsReset (commandWrite w) = false :=
  ⟨rfl, next_of_isSome _ _ (about_goes_on w), rfl⟩

theorem witness_FieldsHaveTheirWriters_fields :
    (stepped (about 0xC0000006#32)).decErr = true ∧ (stepped (about 0x00000002#32)).ambig = true ∧
    (stepped (about 0x00000F01#32)).result = 0xC0#8 ∧ (stepped (about 0x30000003#32)).outLen = 48#8 ∧
    (stepped (about 0x00000007#32)).err = 2#4 := by decide +kernel

/-- `BufferBytesHaveTheirWriters`: the last byte of `IN` written by the host, the first of `OUT` by `ENCODE`. -/
theorem witness_BufferBytesHaveTheirWriters :
    let s := facing (wordAccess (.write 0xFF000000#32) 0x1BC) State.reset
    let u := State.reset.setPending [commandWrite 0x30000005#32]
    s.pending.map assertsReset = [false] ∧ u.pending.map assertsReset = [false] ∧
    step s = .next (stepped s) ∧ inByte (stepped s) 191 ≠ inByte s 191 ∧
    step u = .next (stepped u) ∧ outByte (stepped u) 0 ≠ outByte u 0 :=
  ⟨by decide, by decide, next_of_isSome _ _ (by decide +kernel), by decide +kernel, next_of_isSome _ _ (by decide +kernel),
    by decide +kernel⟩

/-- `WindowReadsByRegion` and the read clause of `OtherWritesAreIgnored`: an aligned word offset in every region, at the
first and the last of each. -/
theorem witness_WindowReadsByRegion :
    (∀ off ∈ [0x000, 0x004, 0x008, 0x00C, 0x010, 0x014, 0x018, 0x0FC, 0x100, 0x1BC, 0x1C0, 0x1FC, 0x200, 0x2BC, 0x2C0,
      0x2FC, 0x300, 0x30C, 0x310, 0x3FC, 0x400, 0x4FC, 0x500, 0xFFC],
      let a := wordAccess .read off
      (facing a State.reset).pending = .access a :: [] ∧ a.width = 32 ∧ a.off % 4 = 0 ∧ a.off < 4096) ∧
    (wordAccess .fetch 0x000).kind = .fetch := by decide

theorem witness_InWordWrittenLittleEndian :
    ∀ off ∈ [0x100, 0x1BC], let a := wordAccess (.write 0x44332211#32) off
      (facing a State.reset).pending = .access a :: [] ∧ a.kind = .write 0x44332211#32 ∧ a.width = 32 ∧
      a.off % 4 = 0 ∧ 0x100 ≤ a.off ∧ a.off ≤ 0x1BF := by decide

theorem witness_OtherWritesAreIgnored :
    ∀ off ∈ [0x000, 0x008, 0x0FC, 0x1C0, 0x200, 0x300, 0x4FC, 0xFFC], let a := wordAccess (.write 1#32) off
      (facing a State.reset).pending = .access a :: [] ∧ a.kind = .write 1#32 ∧ a.width = 32 ∧ a.off % 4 = 0 ∧
      a.off < 4096 ∧ a.off ≠ 0x004 ∧ ¬(0x100 ≤ a.off ∧ a.off ≤ 0x1BF) := by decide

theorem witness_UnadmittedAccessChangesNothing :
    (∀ a ∈ [{ wordAccess .read 0x000 with width := 64 }, wordAccess .read 0x101, wordAccess .read 4096],
      (facing a State.reset).pending = .access a :: [] ∧ (a.width ≠ 32 ∨ a.off % 4 ≠ 0 ∨ 4096 ≤ a.off)) ∧
    (let a := wordAccess .read 4092; a.width = 32 ∧ a.off % 4 = 0 ∧ a.off < 4096) := by decide

theorem witness_MasterModeAndExclusivityAreIgnored :
    let a := wordAccess .read 0x008
    let a' := { a with kind := .fetch, master := 3, hostMode := 1, exclusive := true }
    (a'.kind = .fetch ∧ a.kind = .read) ∧ a'.off = a.off ∧ a'.width = a.width := by decide

theorem witness_EventsAreServedInOrderAndAllComplete :
    (State.reset.setPending [.reset, commandWrite 1#32]).pending = .reset :: [commandWrite 1#32] ∧
    (facing (wordAccess .read 0x000) State.reset).pending = .access (wordAccess .read 0x000) :: [] ∧
    State.reset.pending = [] := by decide

/-- `ReadAfterInWriteSeesIt`: the ends of `IN`, and the ends of the window. -/
theorem witness_ReadAfterInWriteSeesIt :
    (∀ off ∈ [0x100, 0x1BC], off % 4 = 0 ∧ 0x100 ≤ off ∧ off ≤ 0x1BF) ∧
    ∀ off' ∈ [0x000, 0x100, 0xFFC], off' % 4 = 0 ∧ off' < 4096 := by decide

theorem witness_RoutingKeepsOffsetAndAlignment (a : Access) :
    routeAccess (Config.qcuBase + 0xFFF) a = some { a with off := 0xFFF } ∧
    routeAccess (Config.qcuBase + 4096) a = none := by
  simp [routeAccess]

theorem witness_ResetValuesAreZero :
    ∀ off ∈ [0x000, 0x003, 0x014, 0x017, 0x300, 0x30F, 0x400, 0x4FF],
      off ≤ 0x003 ∨ (0x014 ≤ off ∧ off ≤ 0x017) ∨ (0x300 ≤ off ∧ off ≤ 0x30F) ∨ (0x400 ≤ off ∧ off ≤ 0x4FF) := by decide

theorem witness_table_statements :
    hd 0x03#8 0x03#8 = 0 ∧ (1#4 : Nibble) ≠ 0#4 ∧ hd 0x02#8 (codeword 0#4) ≤ 1 ∧ hd 0x03#8 (codeword 0#4) ≤ 1 := by
  decide +kernel

theorem witness_transposition_statements :
    (oneByte 47 0x80#8).length = 48 ∧ (List.replicate 48 0xFF#8).length = 48 ∧
    (∀ j < 48, j / 6 ≠ 7 → byteAt (oneByte 47 0x80#8) j = byteAt (List.replicate 48 0x00#8) j) := by decide +kernel

/-- The block of the all-zero message (V4) presented with bytes 0 to 23 flipped (E5), and with bytes 168 to 191. -/
def burstAt (first : Nat) : State :=
  withIn ((List.range 192).map fun p =>
    (if p < 48 then 0xFF#8 else 0x00#8) ^^^ (if first ≤ p ∧ p < first + 24 then 0xFF#8 else 0x00#8))

theorem burst_errors (first : Nat) (h : first ∈ [0, 168]) : ∀ j < 192,
    inByte (burstAt first) j ^^^ outByte (after 0x30000005#32 State.reset) j =
      if first ≤ j ∧ j < first + 24 then 0xFF#8 else 0x00#8 := by
  revert first
  decide +kernel

theorem witness_encode_runs :
    exec (.encode (flds 0 0 0 48)) State.reset = .next (after 0x30000005#32 State.reset) :=
  next_of_isSome _ _ (by decide +kernel)

theorem witness_DecodeOfEncodeReturnsMessage :
    legal (flds 0 0 0 48) 48#8 ∧ legal (flds 0 0 0 192) 192#8 ∧
    exec (.encode (flds 0 0 0 48)) State.reset = .next (after 0x30000005#32 State.reset) ∧
    ∀ k < 192, inByte (withIn (encodeBlock (List.replicate 48 0#8))) k =
      outByte (after 0x30000005#32 State.reset) k :=
  ⟨by decide, by decide, witness_encode_runs, by decide +kernel⟩

theorem witness_SparseErrorsAreCorrected (first : Nat) (hf : first ∈ [0, 168]) :
    legal (flds 0 0 0 48) 48#8 ∧ legal (flds 0 0 0 192) 192#8 ∧
    exec (.encode (flds 0 0 0 48)) State.reset = .next (after 0x30000005#32 State.reset) ∧
    ∀ n < 4, ∀ i < 48, ∀ b < 8, ∀ c < 8,
      (inByte (burstAt first) (24 * b + 6 * n + i / 8) ^^^
        outByte (after 0x30000005#32 State.reset) (24 * b + 6 * n + i / 8)).getLsbD (i % 8) = true →
      (inByte (burstAt first) (24 * c + 6 * n + i / 8) ^^^
        outByte (after 0x30000005#32 State.reset) (24 * c + 6 * n + i / 8)).getLsbD (i % 8) = true → b = c := by
  refine ⟨by decide, by decide, witness_encode_runs, fun n hn i hi b hb c hc => ?_⟩
  rw [burst_errors first hf _ (by omega), burst_errors first hf _ (by omega)]
  simp only [List.mem_cons, List.not_mem_nil, or_false] at hf
  split <;> split <;> simp
  omega

theorem witness_SingleBurstIsCorrected (first : Nat) (hf : first ∈ [0, 168]) :
    legal (flds 0 0 0 48) 48#8 ∧ legal (flds 0 0 0 192) 192#8 ∧
    exec (.encode (flds 0 0 0 48)) State.reset = .next (after 0x30000005#32 State.reset) ∧
    (∀ j < 192, ∀ k < 8,
      (inByte (burstAt first) j ^^^ outByte (after 0x30000005#32 State.reset) j).getLsbD k = true →
      8 * first ≤ 8 * j + k ∧ 8 * j + k < 8 * first + 192) ∧
    (∀ j < 192, ∀ k < 8,
      (inByte (burstAt first) j ^^^ outByte (after 0x30000005#32 State.reset) j).getLsbD k = true →
      8 * first ≤ 8 * j + (7 - k) ∧ 8 * j + (7 - k) < 8 * first + 192) := by
  refine ⟨by decide, by decide, witness_encode_runs, ?_, ?_⟩ <;>
  · intro j hj k hk
    rw [burst_errors first hf j hj]
    split
    · intro _; omega
    · simp

end Sys2Proof.Tests
end

section
/-! PROOFS. O37: the Hamming distance of 41_codebook.md rule R110 is Mathlib's, on the eight bits of a byte, so the laws
of a metric are the library's. -/

namespace Sys2Proof.Proofs
open Sys2Proof Sys2Proof.Machine

/-- The eight bits of a byte as a family, the form `hammingDist` takes. -/
def byteBits (v : Byte) : Fin 8 → Bool := fun k => v.getLsbD k

theorem byteBits_injective : Function.Injective byteBits := fun a b h =>
  byte_ext a b fun k hk => congrFun h ⟨k, hk⟩

theorem popcount_eq_card (v : Byte) : popcount v = (Finset.univ.filter fun k : Fin 8 => v.getLsbD k = true).card := by
  calc popcount v = ((List.finRange 8).map Fin.val).countP fun k => v.getLsbD k := by
        rw [popcount, List.map_coe_finRange_eq_range]
    _ = ((List.finRange 8).filter fun k => v.getLsbD k.val = true).length := by
        rw [List.countP_map, List.countP_eq_length_filter]
        simp [Function.comp_def]
    _ = (Finset.univ.filter fun k : Fin 8 => v.getLsbD k = true).card := rfl

/-- A bit of `a ^^^ b` is set where the bits of `a` and `b` differ. -/
theorem hd_eq_hammingDist (a b : Byte) : hd a b = hammingDist (byteBits a) (byteBits b) := by
  have hbit (k : Fin 8) : (a ^^^ b).getLsbD k = true ↔ byteBits a k ≠ byteBits b k := by
    simp [byteBits]
  simp only [hd, popcount_eq_card, hbit, hammingDist]

theorem hd_le_eight (a b : Byte) : hd a b ≤ 8 := by
  simpa [hd_eq_hammingDist] using hammingDist_le_card_fintype (x := byteBits a) (y := byteBits b)

theorem hd_eq_zero_iff (a b : Byte) : hd a b = 0 ↔ a = b := by
  rw [hd_eq_hammingDist, hammingDist_eq_zero, byteBits_injective.eq_iff]

theorem hd_comm (a b : Byte) : hd a b = hd b a := by
  simp only [hd_eq_hammingDist, hammingDist_comm]

theorem hd_triangle (a b c : Byte) : hd a c ≤ hd a b + hd b c := by
  simpa only [hd_eq_hammingDist] using hammingDist_triangle (byteBits a) (byteBits b) (byteBits c)

/-- Settles O37: the laws of `hammingDist`, carried over by `hd_eq_hammingDist`. -/
theorem hammingDistanceIsAMetric : Obligations.HammingDistanceIsAMetric := fun a b c =>
  ⟨(hd_eq_zero_iff a a).2 rfl, (hd_eq_zero_iff a b).1, hd_comm a b, hd_triangle a b c, hd_le_eight a b⟩

end Sys2Proof.Proofs
end

section
/-! PROOFS. O33: an access of the host's address space at the window (00_scope.md rule R7, 20_memory.md rule R50). -/

namespace Sys2Proof.Proofs
open Sys2Proof Sys2Proof.Machine

/-- The routed accesses are those at `QCU_BASE` plus an offset of the window; routing sets the offset alone. -/
theorem routeAccess_eq_some_iff (addr : Nat) (a a' : Access) :
    routeAccess addr a = some a' ↔ ∃ off < 4096, addr = Config.qcuBase + off ∧ a' = { a with off := off } := by
  unfold routeAccess Config.windowSize
  constructor
  · intro h
    split at h
    next hin =>
      obtain ⟨off, rfl⟩ := Nat.exists_eq_add_of_le hin.1
      exact ⟨off, by omega, rfl, by simpa [eq_comm] using h⟩
    next => contradiction
  · rintro ⟨off, hoff, rfl, rfl⟩
    simp [hoff]

theorem routeAccess_eq_none_iff (addr : Nat) (a : Access) :
    routeAccess addr a = none ↔ addr < Config.qcuBase ∨ Config.qcuBase + 4096 ≤ addr := by
  unfold routeAccess Config.windowSize
  split
  next hin => simp only [reduceCtorEq, false_iff]; omega
  next hout => simp only [true_iff]; omega

/-- The window begins at a multiple of 4096 (R7), so its words are aligned in the host's address space too. -/
theorem qcuBase_add_mod_four (off : Nat) : (Config.qcuBase + off) % 4 = off % 4 := by
  have hbase : Config.qcuBase = 4096 * Config.qcuBasePage := rfl
  omega

/-- Settles O33, from the form of the routed accesses and the alignment of `QCU_BASE`. -/
theorem routingKeepsOffsetAndAlignment : Obligations.RoutingKeepsOffsetAndAlignment := by
  refine fun addr a => ⟨fun a' h => ?_, routeAccess_eq_none_iff addr a⟩
  obtain ⟨off, hoff, rfl, rfl⟩ := (routeAccess_eq_some_iff addr a a').1 h
  exact ⟨hoff, rfl, (qcuBase_add_mod_four off).symm, rfl, rfl⟩

end Sys2Proof.Proofs
end

section
/-! PROOFS. What a command changes: its legality (30_encoding.md rule R72), and O17, the bytes it may write
(40_command.md rule R102). -/

namespace Sys2Proof.Proofs
open Sys2Proof Sys2Proof.Machine

theorem one_append_low_bits : ∀ op : BitVec 4, 8 ≤ op.toNat → 1#1 ++ op.extractLsb' 0 3 = op := by decide

theorem opcode_commandOf (op : BitVec 4) (f : Fields) : (commandOf op f).opcode = op := by
  unfold commandOf
  split
  iterate 8
    next hop => exact (BitVec.eq_of_toNat_eq hop).symm
  next => exact one_append_low_bits op (by simp only [imp_false] at *; omega)

/-- The opcode of the command a word decodes to is the word's `OP` field (R70, R72). -/
theorem opcode_decode (w : Word) : (decode w).opcode = w.extractLsb' 0 4 := opcode_commandOf _ _

theorem checkNoOperand_eq_ok_iff (f : Fields) :
    checkNoOperand f = .ok ↔ f.rsv0 = 0#4 ∧ f.rsv1 = 0#8 ∧ f.arg = 0#8 ∧ f.len = 0#8 := by
  simp [checkNoOperand]

theorem checkNibbleOperand_eq_ok_iff (f : Fields) :
    checkNibbleOperand f = .ok ↔ f.rsv0 = 0#4 ∧ f.rsv1 = 0#8 ∧ f.arg.extractLsb' 4 4 = 0#4 ∧ f.len = 0#8 := by
  simp [checkNibbleOperand]

theorem checkByteOperand_eq_ok_iff (f : Fields) :
    checkByteOperand f = .ok ↔ f.rsv0 = 0#4 ∧ f.rsv1 = 0#8 ∧ f.len = 0#8 := by
  simp [checkByteOperand]

theorem checkBufferOperand_eq_ok_iff (required : Byte) (f : Fields) :
    checkBufferOperand required f = .ok ↔ f.rsv0 = 0#4 ∧ f.rsv1 = 0#8 ∧ f.arg = 0#8 ∧ f.len = required := by
  unfold checkBufferOperand
  split
  next hclear => simp [hclear]
  next hset => simp only [reduceCtorEq, false_iff]; tauto

theorem seven_le_high_opcode : ∀ low : BitVec 3, 7 ≤ (1#1 ++ low).toNat := by decide

/-- The checks pass exactly for the well-formed commands with a meaning (R72, R79). -/
theorem verdict_eq_ok_iff (i : Instr) : verdict i = .ok ↔ i.wf = true ∧ i.opcode.toNat < 7 := by
  cases i with
  | nop f => simp [verdict, Instr.wf, Instr.opcode, Fields.reservedClear, checkNoOperand_eq_ok_iff, and_assoc]
  | encnib f => simp [verdict, Instr.wf, Instr.opcode, Fields.reservedClear, checkNibbleOperand_eq_ok_iff, and_assoc]
  | lookup f => simp [verdict, Instr.wf, Instr.opcode, Fields.reservedClear, checkByteOperand_eq_ok_iff, and_assoc]
  | xfwd f | xrev f | encode f | decode f =>
    simp [verdict, Instr.wf, Instr.opcode, Fields.reservedClear, checkBufferOperand_eq_ok_iff, and_assoc]
  | reserved7 f => simp [verdict, Instr.opcode]
  | reservedHigh low f => simp [verdict, Instr.opcode, seven_le_high_opcode low]

theorem read_writeOut_outside (s : State) (bs : List Byte) (a : Nat) (h : ¬(0x200 ≤ a ∧ a < 0x200 + bs.length)) :
    Memory.read (s.writeOut bs).mem a = Memory.read s.mem a := by
  rw [read_writeOut, if_neg h]

/-- What a command performs leaves every byte outside its output bytes alone (R102). -/
theorem read_effect_outside (i : Instr) (s : State) (a : Nat)
    (hblock : i.opcode.toNat = 5 → ¬(0x200 ≤ a ∧ a < 0x200 + 192))
    (hmessage : i.opcode.toNat = 3 ∨ i.opcode.toNat = 4 ∨ i.opcode.toNat = 6 → ¬(0x200 ≤ a ∧ a < 0x200 + 48)) :
    Memory.read (effect i s).mem a = Memory.read s.mem a := by
  cases i with
  | nop | encnib | lookup | reserved7 | reservedHigh => rfl
  | xfwd | xrev | decode =>
    refine read_writeOut_outside s _ a ?_
    simpa [Instr.opcode] using hmessage
  | encode =>
    refine read_writeOut_outside s _ a ?_
    simpa [Instr.opcode] using hblock

/-- Settles O17: a failing command keeps memory, and a performed one writes only its output bytes. -/
theorem commandsWriteOnlyTheirOutputBytes : Obligations.CommandsWriteOnlyTheirOutputBytes := by
  intro i s t h a hblock hmessage
  obtain ⟨-, rfl⟩ | ⟨-, rfl⟩ := exec_cases i s t h
  · exact read_effect_outside i s a hblock hmessage
  · rfl

/-- No command changes a byte of `IN` (R28, R102). -/
theorem inByte_exec (i : Instr) (s t : State) (h : exec i s = .next t) (k : Nat) (hk : k < 192) :
    inByte t k = inByte s k :=
  commandsWriteOnlyTheirOutputBytes i s t h (0x100 + k) (fun _ => by omega) (fun _ => by omega)

end Sys2Proof.Proofs
end

section
/-! PROOFS. What serving one event can do, and O6: a `CMD` write runs its command (40_command.md rule R100). -/

namespace Sys2Proof.Proofs
open Sys2Proof Sys2Proof.Machine

theorem serveAccess_write (a : Access) (v : Word) (s : State) (hadm : admitted a = true) (hk : a.kind = .write v) :
    serveAccess a s = writeWindow a.off v (s.setResponse .writeDone) := by
  simp [serveAccess, hadm, hk]

theorem writeWindow_cmd (off : Nat) (w : Word) (s : State) (h : 0x004 ≤ off ∧ off ≤ 0x007) :
    writeWindow off w s = exec (decode w) s := by
  simp [writeWindow, (regionOf_cmd_iff off).2 h]

/-- Settles O6: the access is admitted, and its offset is that of `CMD`. -/
theorem stepRunsDecodedCommand : Obligations.StepRunsDecodedCommand := by
  intro s a w rest hpend hk hwidth hoff
  have hadm : admitted a = true := (admitted_iff a).2 ⟨hwidth, by omega, by omega⟩
  calc step s = serveAccess a (s.setPending rest) := step_cons s _ rest hpend
    _ = writeWindow a.off w ((s.setPending rest).setResponse .writeDone) := serveAccess_write a w _ hadm hk
    _ = exec (decode w) ((s.setPending rest).setResponse .writeDone) := writeWindow_cmd a.off w _ (by omega)

theorem wordWritten_access (a : Access) (v : Word) (first last : Nat) (hadm : admitted a = true)
    (hk : a.kind = .write v) (hoff : first ≤ a.off ∧ a.off ≤ last) :
    wordWritten first last (.access a) = some v := by
  simp [wordWritten, hk, hadm, hoff]

/-- The host's write of `v` to word `j` of `IN`, as it changes the state (R53). -/
def storeInWord (j : Nat) (v : Word) (s : State) : State :=
  s.setMem (Memory.writeWord s.mem (0x100 + 4 * j) v)

/-- Serving an event that does not assert reset runs a command, stores a word of `IN`, or only answers the host
(R52 to R56). -/
theorem serve_cases (e : Event) (s t : State) (h : serve e s = .next t) (hreset : assertsReset e = false) :
    (∃ w, commandOfEvent e = some w ∧ exec (decode w) (s.setResponse .writeDone) = .next t) ∨
    (∃ j < 48, ∃ v, wordWritten (0x100 + 4 * j) (0x100 + 4 * j + 3) e = some v ∧
      t = storeInWord j v (s.setResponse .writeDone)) ∨
    ∃ r, t = s.setResponse r := by
  cases e with
  | reset | resetDuringCommand => cases hreset
  | access a =>
    rw [serve] at h
    obtain ⟨-, hserve⟩ | ⟨-, -, hserve⟩ | ⟨v, hadm, hk, hserve⟩ := serveAccess_cases a s
    · cases hserve.symm.trans h
      exact .inr (.inr ⟨_, rfl⟩)
    · cases hserve.symm.trans h
      exact .inr (.inr ⟨_, rfl⟩)
    · rw [hserve] at h
      obtain ⟨hreg, hwrite⟩ | ⟨hreg, hwrite⟩ | ⟨-, -, hwrite⟩ := writeWindow_cases a.off v (s.setResponse .writeDone)
      · exact .inl ⟨v, wordWritten_access a v _ _ hadm hk ((regionOf_cmd_iff a.off).1 hreg), hwrite ▸ h⟩
      · have hin := (regionOf_inBuf_iff a.off).1 hreg
        have haligned := ((admitted_iff a).1 hadm).2.1
        cases hwrite.symm.trans h
        exact .inr (.inl ⟨(a.off - 0x100) / 4, by omega, v, wordWritten_access a v _ _ hadm hk (by omega), rfl⟩)
      · cases hwrite.symm.trans h
        exact .inr (.inr ⟨_, rfl⟩)

end Sys2Proof.Proofs
end

section
/-! PROOFS. O20 and O21: what the state can hold, at reset and after every step (10_state.md rules R24 to R26, R33). -/

namespace Sys2Proof.Proofs
open Sys2Proof Sys2Proof.Machine

theorem codeword_mem_codebook (n : Nibble) : codeword n ∈ codebook := by
  revert n; decide

/-- The ReverseMap's entries are nibbles or `SENTINEL` (R117). -/
theorem reverseMap_le_sentinel (v : Byte) : (reverseMap v).toNat ≤ Config.sentinel := by
  revert v; decide +kernel

theorem inv_setErr (c : ErrCode) (s : State) (h : Inv s) : Inv (s.setErr c.code) := by
  obtain ⟨hmem, -, hlen, hresult⟩ := h
  exact ⟨hmem, code_le_three c, hlen, hresult⟩

theorem inv_writeOut_setOutLen (s : State) (bs : List Byte) (h : Inv s) (n : Byte) (hbs : bs.length ≤ 192)
    (hn : n = 48#8 ∨ n = 192#8) : Inv ((s.writeOut bs).setOutLen n) := by
  obtain ⟨hmem, herr, -, hresult⟩ := h
  exact ⟨wf_writeOut s bs hmem hbs, herr, .inr hn, hresult⟩

theorem inv_effect (i : Instr) (s : State) (h : Inv s) : Inv (effect i s) := by
  cases i with
  | nop | reserved7 | reservedHigh => exact h
  | encnib f =>
    obtain ⟨hmem, herr, hlen, -⟩ := h
    exact ⟨hmem, herr, hlen, .inl (codeword_mem_codebook _)⟩
  | lookup f =>
    obtain ⟨hmem, herr, hlen, -⟩ := h
    refine ⟨hmem, herr, hlen, .inr ?_⟩
    simpa [effect, deliverEntry] using (Nat.mod_le _ _).trans (reverseMap_le_sentinel (byteOperand f))
  | xfwd | xrev | decode => exact inv_writeOut_setOutLen s _ h _ (by simp) (.inl rfl)
  | encode => exact inv_writeOut_setOutLen s _ h _ (by simp) (.inr rfl)

theorem inv_exec (i : Instr) (s t : State) (h : Inv s) (hexec : exec i s = .next t) : Inv t := by
  obtain ⟨-, rfl⟩ | ⟨-, rfl⟩ := exec_cases i s t hexec
  · exact inv_setErr .ok _ (inv_effect i s h)
  · exact inv_setErr _ s h

theorem inv_storeInWord (j : Nat) (v : Word) (s : State) (hj : j < 48) (h : Inv s) : Inv (storeInWord j v s) := by
  obtain ⟨hmem, hrest⟩ := h
  exact ⟨Memory.wf_writeWord _ _ v hmem fun k hk => (backed_iff _).2 (.inl (by omega)), hrest⟩

/-- Settles O21: memory is empty, and every field is 0. -/
theorem resetMeetsInvariant : Obligations.ResetMeetsInvariant := by
  refine ⟨⟨.nil, ?_⟩, ?_, .inl rfl, .inr ?_⟩ <;> simp [State.reset]

theorem inv_serve (e : Event) (s t : State) (h : Inv s) (hserve : serve e s = .next t) : Inv t := by
  cases hreset : assertsReset e with
  | true =>
    cases e with
    | access => cases hreset
    | reset | resetDuringCommand => cases hserve; exact resetMeetsInvariant
  | false =>
    obtain ⟨w, -, hexec⟩ | ⟨j, hj, v, -, rfl⟩ | ⟨r, rfl⟩ := serve_cases e s t hserve hreset
    · exact inv_exec (decode w) (s.setResponse .writeDone) t h hexec
    · exact inv_storeInWord j v (s.setResponse .writeDone) hj h
    · exact h

/-- Settles O20: an idle step keeps the state, and serving an event keeps the invariant. -/
theorem stepKeepsInvariant : Obligations.StepKeepsInvariant := by
  intro s t h hstep
  cases hpend : s.pending with
  | nil => cases (step_idle s hpend).symm.trans hstep; exact h
  | cons e rest => exact inv_serve e (s.setPending rest) t h (step_cons s e rest hpend ▸ hstep)

end Sys2Proof.Proofs
end

section
/-! PROOFS. O23 and O24: which event can change each part of the record (10_state.md rules R24 to R29). -/

namespace Sys2Proof.Proofs
open Sys2Proof Sys2Proof.Machine

/-- The part `part` of the state is written only by what the opcodes `ops` perform. -/
structure WrittenOnlyBy {α : Type} (part : State → α) (ops : List Nat) : Prop where
  setErr : ∀ s v, part (s.setErr v) = part s
  setResponse : ∀ s r, part (s.setResponse r) = part s
  storeInWord : ∀ j < 48, ∀ v s, part (storeInWord j v s) = part s
  effect : ∀ i s, i.opcode.toNat ∉ ops → part (effect i s) = part s

theorem decErr_writtenOnlyBy : WrittenOnlyBy State.decErr [6] where
  setErr _ _ := rfl
  setResponse _ _ := rfl
  storeInWord _ _ _ _ := rfl
  effect i s h := by
    cases i with
    | decode => simp [Instr.opcode] at h
    | _ => rfl

theorem ambig_writtenOnlyBy : WrittenOnlyBy State.ambig [2] where
  setErr _ _ := rfl
  setResponse _ _ := rfl
  storeInWord _ _ _ _ := rfl
  effect i s h := by
    cases i with
    | lookup => simp [Instr.opcode] at h
    | _ => rfl

theorem result_writtenOnlyBy : WrittenOnlyBy State.result [1, 2] where
  setErr _ _ := rfl
  setResponse _ _ := rfl
  storeInWord _ _ _ _ := rfl
  effect i s h := by
    cases i with
    | encnib | lookup => simp [Instr.opcode] at h
    | _ => rfl

theorem outLen_writtenOnlyBy : WrittenOnlyBy State.outLen [3, 4, 5, 6] where
  setErr _ _ := rfl
  setResponse _ _ := rfl
  storeInWord _ _ _ _ := rfl
  effect i s h := by
    cases i with
    | xfwd | xrev | encode | decode => simp [Instr.opcode] at h
    | _ => rfl

/-- Storing a word of `IN` changes only its own four bytes (R53). -/
theorem read_storeInWord_outside (j : Nat) (v : Word) (s : State) (a : Nat)
    (h : ¬(0x100 + 4 * j ≤ a ∧ a < 0x100 + 4 * j + 4)) :
    Memory.read (storeInWord j v s).mem a = Memory.read s.mem a :=
  (Memory.read_writeBytes (bytesOfWord v) s.mem _ a).trans (if_neg h)

theorem outByte_writtenOnlyBy (k : Nat) : WrittenOnlyBy (outByte · k) [3, 4, 5, 6] where
  setErr _ _ := rfl
  setResponse _ _ := rfl
  storeInWord j hj v s := read_storeInWord_outside j v s _ (by simp only [Config.outBase]; omega)
  effect i s h := by
    cases i with
    | xfwd | xrev | encode | decode => simp [Instr.opcode] at h
    | _ => rfl

/-- A command that changes the part is a legal one of its writers: a failing command changes `STATUS.ERR` alone. -/
theorem WrittenOnlyBy.of_exec {α : Type} {part : State → α} {ops : List Nat} (hpart : WrittenOnlyBy part ops)
    (i : Instr) (s t : State) (h : exec i s = .next t) (hne : part t ≠ part s) :
    i.opcode.toNat ∈ ops ∧ i.wf = true := by
  obtain ⟨hok, rfl⟩ | ⟨-, rfl⟩ := exec_cases i s t h
  · rw [hpart.setErr] at hne
    exact ⟨by_contra fun hops => hne (hpart.effect i s hops), ((verdict_eq_ok_iff i).1 hok).1⟩
  · exact absurd (hpart.setErr s _) hne

/-- An event but reset that changes the part is the `CMD` write of a legal one of its writers. -/
theorem WrittenOnlyBy.of_serve {α : Type} {part : State → α} {ops : List Nat} (hpart : WrittenOnlyBy part ops)
    (s t : State) (e : Event) (h : serve e s = .next t) (hreset : assertsReset e = false) (hne : part t ≠ part s) :
    ∃ w, commandOfEvent e = some w ∧ (w.extractLsb' 0 4).toNat ∈ ops ∧ (decode w).wf = true := by
  obtain ⟨w, hw, hexec⟩ | ⟨j, hj, v, -, rfl⟩ | ⟨r, rfl⟩ := serve_cases e s t h hreset
  · rw [← hpart.setResponse s .writeDone] at hne
    exact ⟨w, hw, opcode_decode w ▸ hpart.of_exec _ _ t hexec hne⟩
  · exact absurd ((hpart.storeInWord j hj v _).trans (hpart.setResponse s _)) hne
  · exact absurd (hpart.setResponse s r) hne

/-- Serving an event but reset changes `STATUS.ERR` only by a command word (R24). -/
theorem commandOfEvent_of_err_ne (s t : State) (e : Event) (h : serve e s = .next t) (hreset : assertsReset e = false)
    (hne : t.err ≠ s.err) : ∃ w, commandOfEvent e = some w := by
  obtain ⟨w, hw, -⟩ | ⟨j, -, v, -, rfl⟩ | ⟨r, rfl⟩ := serve_cases e s t h hreset
  · exact ⟨w, hw⟩
  · exact absurd rfl hne
  · exact absurd rfl hne

/-- Serving an event but reset changes a byte of `IN` only by a host write to its word (R28). -/
theorem wordWritten_of_inByte_ne (s t : State) (e : Event) (h : serve e s = .next t)
    (hreset : assertsReset e = false) (k : Nat) (hk : k < 192) (hne : inByte t k ≠ inByte s k) :
    ∃ v, wordWritten (0x100 + 4 * (k / 4)) (0x100 + 4 * (k / 4) + 3) e = some v := by
  obtain ⟨w, -, hexec⟩ | ⟨j, -, v, hv, rfl⟩ | ⟨r, rfl⟩ := serve_cases e s t h hreset
  · exact absurd (inByte_exec _ _ t hexec k hk) hne
  · have hin : 0x100 + 4 * j ≤ 0x100 + k ∧ 0x100 + k < 0x100 + 4 * j + 4 :=
      by_contra fun hout => hne (read_storeInWord_outside j v (s.setResponse .writeDone) _ hout)
    obtain rfl : j = k / 4 := by omega
    exact ⟨v, hv⟩
  · exact absurd rfl hne

/-- Settles O23: the writers of each field, and of `STATUS.ERR` every command word. -/
theorem fieldsHaveTheirWriters : Obligations.FieldsHaveTheirWriters := by
  intro s t e rest hpend hstep hreset
  have hserve : serve e (s.setPending rest) = .next t := step_cons s e rest hpend ▸ hstep
  exact ⟨decErr_writtenOnlyBy.of_serve (s.setPending rest) t e hserve hreset,
    ambig_writtenOnlyBy.of_serve (s.setPending rest) t e hserve hreset,
    result_writtenOnlyBy.of_serve (s.setPending rest) t e hserve hreset,
    outLen_writtenOnlyBy.of_serve (s.setPending rest) t e hserve hreset,
    commandOfEvent_of_err_ne (s.setPending rest) t e hserve hreset⟩

/-- Settles O24: the writers of a byte of `OUT`, and of a byte of `IN` the host alone. -/
theorem bufferBytesHaveTheirWriters : Obligations.BufferBytesHaveTheirWriters := by
  intro s t e rest hpend hstep hreset
  have hserve : serve e (s.setPending rest) = .next t := step_cons s e rest hpend ▸ hstep
  exact ⟨fun k _ => (outByte_writtenOnlyBy k).of_serve (s.setPending rest) t e hserve hreset,
    wordWritten_of_inByte_ne (s.setPending rest) t e hserve hreset⟩

end Sys2Proof.Proofs
end

section
/-! PROOFS. O22: the values after reset (10_state.md rule R33), and the words of the window that no state changes. -/

namespace Sys2Proof.Proofs
open Sys2Proof Sys2Proof.Machine

/-- The regions that hold constants of the QCU (R22, R27, R30, R31). -/
def constantRegions : List Region := [.id, .param, .codebookWindow, .reverseMapWindow]

theorem readWindow_of_constantRegion (s s' : State) (off : Nat) (h : regionOf off ∈ constantRegions) :
    readWindow s off = readWindow s' off := by
  unfold readWindow
  cases hreg : regionOf off with
  | id | param | codebookWindow | reverseMapWindow => rfl
  | _ => exact absurd (hreg ▸ h) (by decide)

/-- The offsets of the constants (R51). -/
theorem regionOf_mem_constantRegions (off : Nat) (h : off ≤ 0x003 ∨ (0x014 ≤ off ∧ off ≤ 0x017) ∨
    (0x300 ≤ off ∧ off ≤ 0x30F) ∨ (0x400 ≤ off ∧ off ≤ 0x4FF)) : regionOf off ∈ constantRegions := by
  rw [regionOf_eq]
  obtain hid | hparam | hcodebook | hmap := h <;> simp (disch := omega) only [if_neg, if_pos] <;> decide

/-- Settles O22: each reset value computes, and the other words lie in regions of constants. -/
theorem resetValuesAreZero : Obligations.ResetValuesAreZero :=
  ⟨rfl, rfl, rfl, rfl, rfl, fun _ _ => rfl, fun _ _ => rfl, fun s off h =>
    readWindow_of_constantRegion s State.reset off (regionOf_mem_constantRegions off h)⟩

end Sys2Proof.Proofs
end

section
/-! PROOFS. O18: a command runs on its own result as it ran before (40_command.md rule R103), because it reads `IN`
only, which it does not write, and writing the same bytes of `OUT` again changes nothing. -/

namespace Sys2Proof.Proofs
open Sys2Proof Sys2Proof.Machine

/-- Writing at most 192 bytes to `OUT` leaves every operand of a command alone (R28). -/
theorem inBytes_writeOut (s : State) (bs : List Byte) (n : Nat) (hn : n ≤ 192) :
    inBytes (s.writeOut bs) n = inBytes s n :=
  List.map_congr_left fun k hk => inByte_writeOut s bs k (by have := List.mem_range.mp hk; omega)

/-- The same bytes written to `OUT` again are there already; canonical memory then is the same data. -/
theorem writeOut_writeOut_same (s : State) (bs : List Byte) (h : Memory.wf s.mem) (hl : bs.length ≤ 192) :
    (s.writeOut bs).writeOut bs = s.writeOut bs := by
  have hwf : Memory.wf (s.writeOut bs).mem := wf_writeOut s bs h hl
  have hmem : ((s.writeOut bs).writeOut bs).mem = (s.writeOut bs).mem := by
    refine Memory.eq_of_read _ _ (wf_writeOut _ bs hwf hl) hwf fun a => ?_
    simp only [read_writeOut]
    split <;> rfl
  exact congrArg (s.setMem ·) hmem

@[simp] theorem inBytes_setOutLen (s : State) (v : Byte) (n : Nat) : inBytes (s.setOutLen v) n = inBytes s n := rfl
@[simp] theorem inBytes_setDecErr (s : State) (v : Bool) (n : Nat) : inBytes (s.setDecErr v) n = inBytes s n := rfl
@[simp] theorem inBytes_setErr (s : State) (v : BitVec 4) (n : Nat) : inBytes (s.setErr v) n = inBytes s n := rfl

@[simp] theorem writeOut_setOutLen (s : State) (v : Byte) (bs : List Byte) :
    (s.setOutLen v).writeOut bs = (s.writeOut bs).setOutLen v := rfl
@[simp] theorem writeOut_setDecErr (s : State) (v : Bool) (bs : List Byte) :
    (s.setDecErr v).writeOut bs = (s.writeOut bs).setDecErr v := rfl
@[simp] theorem writeOut_setErr (s : State) (v : BitVec 4) (bs : List Byte) :
    (s.setErr v).writeOut bs = (s.writeOut bs).setErr v := rfl

/-- What a command performs does not look at `STATUS.ERR`, and leaves it to the completion. -/
theorem effect_setErr (i : Instr) (s : State) (v : BitVec 4) : effect i (s.setErr v) = (effect i s).setErr v := by
  cases i with
  | nop | encnib | lookup | reserved7 | reservedHigh => rfl
  | xfwd | xrev | encode | decode => simp only [effect, inBytes_setErr, writeOut_setErr]; rfl

theorem effect_idem (i : Instr) (s : State) (h : Memory.wf s.mem) : effect i (effect i s) = effect i s := by
  cases i with
  | nop | encnib | lookup | reserved7 | reservedHigh => rfl
  | xfwd | xrev | encode | decode =>
    simp only [effect, inBytes_setOutLen, inBytes_setDecErr, writeOut_setOutLen, writeOut_setDecErr]
    rw [inBytes_writeOut _ _ _ (by decide), writeOut_writeOut_same _ _ h (by simp)]
    rfl

/-- Settles O18: a performed command by `effect_idem`, a failing one because it writes only its code, again. -/
theorem commandTwiceIsCommandOnce : Obligations.CommandTwiceIsCommandOnce := by
  intro i s t hwf hexec
  rw [exec_eq, runChecked_eq]
  obtain ⟨hok, rfl⟩ | ⟨hfails, rfl⟩ := exec_cases i s t hexec
  · rw [if_pos hok, effect_setErr, effect_idem i s hwf]; rfl
  · rw [if_neg hfails]; rfl

end Sys2Proof.Proofs
end

section
/-! PROOFS. The window word by word: the rows of its map (20_memory.md rule R51), what a read gives in each region
(R52), and what a step with an access pending is. -/

namespace Sys2Proof.Proofs
open Sys2Proof Sys2Proof.Machine

/-- Where the rows of a map ascend, an offset of a row is of that row's region: no earlier row holds it. -/
theorem regionIn_of_mem (rows : List MapRow) (hasc : rows.Pairwise fun q r => q.last < r.first) (row : MapRow)
    (hrow : row ∈ rows) (off : Nat) (hin : row.first ≤ off ∧ off ≤ row.last) : regionIn rows off = row.region := by
  induction rows with
  | nil => simp at hrow
  | cons q rows ih =>
    obtain ⟨hq, hrows⟩ := List.pairwise_cons.mp hasc
    unfold regionIn
    rcases List.mem_cons.mp hrow with rfl | hmem
    · exact if_pos hin
    · have := hq row hmem
      rw [if_neg (by omega)]
      exact ih hrows hmem

/-- The region of an offset is that of the row of the address map that holds it (R51). -/
theorem regionOf_of_row (first last : Nat) (r : Region) (hrow : ⟨first, last, r⟩ ∈ windowMap) (off : Nat)
    (hin : first ≤ off ∧ off ≤ last) : regionOf off = r :=
  regionIn_of_mem windowMap (by decide) ⟨first, last, r⟩ hrow off hin

/-- Byte `j` of a word of a byte array, the word given by its aligned byte offset (R55). -/
theorem wordAt_byte (x : Nat → Byte) (d j : Nat) (hd : d % 4 = 0) (hj : j < 4) :
    (wordAt x (d / 4)).extractLsb' (8 * j) 8 = x (d + j) := by
  have hword : 4 * (d / 4) = d := by omega
  rw [wordAt, wordOfBytes_byte _ _ _ _ j hj, hword]
  obtain rfl | rfl | rfl | rfl : j = 0 ∨ j = 1 ∨ j = 2 ∨ j = 3 := by omega
  all_goals rfl

theorem wordAt_congr (x y : Nat → Byte) (w : Nat) (h : ∀ k < 4, x (4 * w + k) = y (4 * w + k)) :
    wordAt x w = wordAt y w := by
  rw [wordAt, wordAt, h 1 (by omega), h 2 (by omega), h 3 (by omega)]
  exact congrArg (wordOfBytes · _ _ _) (h 0 (by omega))

/-- `STATUS` as a number, its three fields at bits 3:0, 4 and 5 (R24). -/
theorem statusWord_toNat (s : State) :
    (statusWord s).toNat = s.err.toNat + 16 * s.decErr.toNat + 32 * s.ambig.toNat := by
  unfold statusWord
  generalize s.err = e, s.decErr = d, s.ambig = a
  revert e d a
  decide

section
variable (s : State) (off : Nat)

theorem readWindow_id (h : regionOf off = .id) : readWindow s off = 0x51430701#32 := by simp [readWindow, h]
theorem readWindow_cmd (h : regionOf off = .cmd) : readWindow s off = 0#32 := by simp [readWindow, h]
theorem readWindow_status (h : regionOf off = .status) : readWindow s off = statusWord s := by simp [readWindow, h]
theorem readWindow_result (h : regionOf off = .result) : readWindow s off = s.result.setWidth 32 := by
  simp [readWindow, h]
theorem readWindow_outLen (h : regionOf off = .outLen) : readWindow s off = s.outLen.setWidth 32 := by
  simp [readWindow, h]
theorem readWindow_param (h : regionOf off = .param) : readWindow s off = 0x6310C030#32 := by simp [readWindow, h]
theorem readWindow_inBuf (h : regionOf off = .inBuf) : readWindow s off = wordAt (inByte s) ((off - 0x100) / 4) := by
  simp [readWindow, h]
theorem readWindow_outBuf (h : regionOf off = .outBuf) :
    readWindow s off = wordAt (outByte s) ((off - 0x200) / 4) := by simp [readWindow, h]
theorem readWindow_codebook (h : regionOf off = .codebookWindow) :
    readWindow s off = wordAt (byteAt codebook) ((off - 0x300) / 4) := by simp [readWindow, h]
theorem readWindow_reverseMap (h : regionOf off = .reverseMapWindow) :
    readWindow s off = wordAt (fun v => (reverseMap (BitVec.ofNat 8 v)).setWidth 8) ((off - 0x400) / 4) := by
  simp [readWindow, h]
theorem readWindow_reserved (h : regionOf off = .reserved) : readWindow s off = 0#32 := by simp [readWindow, h]

end

/-- What the window reads does not depend on the bus (R52). -/
theorem readWindow_setPending (s : State) (es : List Event) (off : Nat) :
    readWindow (s.setPending es) off = readWindow s off := rfl

theorem readWindow_setResponse (s : State) (r : Response) (off : Nat) :
    readWindow (s.setResponse r) off = readWindow s off := rfl

theorem serveAccess_read (a : Access) (s : State) (hadm : admitted a = true) (hk : a.kind = .read ∨ a.kind = .fetch) :
    serveAccess a s = .next (s.setResponse (.readData (readWindow s a.off))) := by
  obtain hk | hk := hk <;> simp [serveAccess, hadm, hk]

theorem serveAccess_unadmitted (a : Access) (s : State) (hadm : admitted a = false) :
    serveAccess a s = .next (s.setResponse .busError) := by
  simp [serveAccess, hadm]

section
variable (s : State) (a : Access) (rest : List Event) (hpend : s.pending = .access a :: rest)
include hpend

/-- A step that takes an admitted read or fetch answers the word of the window and changes nothing else (R52, R61). -/
theorem step_read (hadm : admitted a = true) (hk : a.kind = .read ∨ a.kind = .fetch) :
    step s = .next ((s.setPending rest).setResponse (.readData (readWindow s a.off))) := by
  rw [step_cons s _ rest hpend, serve, serveAccess_read a _ hadm hk, readWindow_setPending]

theorem step_write (v : Word) (hadm : admitted a = true) (hk : a.kind = .write v) :
    step s = writeWindow a.off v ((s.setPending rest).setResponse .writeDone) := by
  rw [step_cons s _ rest hpend, serve, serveAccess_write a v _ hadm hk]

theorem step_unadmitted (hadm : admitted a = false) : step s = .next ((s.setPending rest).setResponse .busError) := by
  rw [step_cons s _ rest hpend, serve, serveAccess_unadmitted a _ hadm]

end

end Sys2Proof.Proofs
end

section
/-! PROOFS. O25, O26, O27 and O32: what the window reads, and what a write of it does (20_memory.md, R52 to R58). -/

namespace Sys2Proof.Proofs
open Sys2Proof Sys2Proof.Machine

/-- Settles O25: the offset's row of the map gives its region, and the region what a read of it answers. -/
theorem windowReadsByRegion : Obligations.WindowReadsByRegion := by
  intro s a rest hpend hk hwidth haligned hoff
  have hadm : admitted a = true := (admitted_iff a).2 ⟨hwidth, haligned, hoff⟩
  have hrow := fun first last r hmem => regionOf_of_row first last r hmem a.off
  refine ⟨readWindow s a.off, step_read s a rest hpend hadm hk, fun h => ?id, fun h => ?cmd, fun h => ?status,
    fun h => ?result, fun h => ?outLen, fun h => ?param, fun h => ?low, fun h j hj => ?inBuf, fun h => ?afterIn,
    fun h j hj => ?outBuf, fun h => ?afterOut, fun h j hj => ?codebook, fun h => ?afterCodebook,
    fun h j hj => ?reverseMap, fun h => ?high⟩
  case id => exact readWindow_id s _ (hrow 0x000 0x003 _ (by decide) (by omega))
  case cmd => exact readWindow_cmd s _ (hrow 0x004 0x007 _ (by decide) (by omega))
  case status => rw [readWindow_status s _ (hrow 0x008 0x00B _ (by decide) (by omega)), statusWord_toNat]
  case result =>
    rw [readWindow_result s _ (hrow 0x00C 0x00F _ (by decide) (by omega)), BitVec.toNat_setWidth_of_le (by decide)]
  case outLen =>
    rw [readWindow_outLen s _ (hrow 0x010 0x013 _ (by decide) (by omega)), BitVec.toNat_setWidth_of_le (by decide)]
  case param => exact readWindow_param s _ (hrow 0x014 0x017 _ (by decide) (by omega))
  case low => exact readWindow_reserved s _ (hrow 0x018 0x0FF _ (by decide) h)
  case inBuf =>
    rw [readWindow_inBuf s _ (hrow 0x100 0x1BF _ (by decide) h), wordAt_byte _ _ j (by omega) hj]
  case afterIn => exact readWindow_reserved s _ (hrow 0x1C0 0x1FF _ (by decide) h)
  case outBuf =>
    rw [readWindow_outBuf s _ (hrow 0x200 0x2BF _ (by decide) h), wordAt_byte _ _ j (by omega) hj]
  case afterOut => exact readWindow_reserved s _ (hrow 0x2C0 0x2FF _ (by decide) h)
  case codebook =>
    rw [readWindow_codebook s _ (hrow 0x300 0x30F _ (by decide) h), wordAt_byte _ _ j (by omega) hj, byteAt]
  case afterCodebook => exact readWindow_reserved s _ (hrow 0x310 0x3FF _ (by decide) h)
  case reverseMap =>
    rw [readWindow_reverseMap s _ (hrow 0x400 0x4FF _ (by decide) h), wordAt_byte _ _ j (by omega) hj,
      BitVec.toNat_setWidth_of_le (by decide)]
  case high => exact readWindow_reserved s _ (hrow 0x500 0xFFF _ (by decide) (by omega))

theorem bytesOfWord_byte (v : Word) (j : Nat) (hj : j < 4) :
    (bytesOfWord v).getD j 0#8 = v.extractLsb' (8 * j) 8 := by
  obtain rfl | rfl | rfl | rfl : j = 0 ∨ j = 1 ∨ j = 2 ∨ j = 3 := by omega
  all_goals rfl

/-- Storing a word of `IN` puts its bytes there, bits 7:0 first (R53, R55). -/
theorem read_storeInWord_inside (j : Nat) (v : Word) (s : State) (k : Nat) (hk : k < 4) :
    Memory.read (storeInWord j v s).mem (0x100 + 4 * j + k) = v.extractLsb' (8 * k) 8 := by
  calc Memory.read (Memory.writeBytes s.mem (0x100 + 4 * j) (bytesOfWord v)) (0x100 + 4 * j + k)
      = (bytesOfWord v).getD (0x100 + 4 * j + k - (0x100 + 4 * j)) 0#8 := by
        rw [Memory.read_writeBytes, if_pos ⟨Nat.le_add_right _ _, Nat.add_lt_add_left hk _⟩]
    _ = v.extractLsb' (8 * k) 8 := by rw [Nat.add_sub_cancel_left, bytesOfWord_byte v k hk]

/-- The aligned offsets of `IN` are those of its 48 words (R51). -/
theorem exists_inWord (off : Nat) (haligned : off % 4 = 0) (hin : 0x100 ≤ off ∧ off ≤ 0x1BF) :
    ∃ j < 48, off = 0x100 + 4 * j :=
  ⟨(off - 0x100) / 4, by omega, by omega⟩

theorem regionOf_inWord (j : Nat) (hj : j < 48) : regionOf (0x100 + 4 * j) = .inBuf :=
  (regionOf_inBuf_iff _).2 (by omega)

theorem writeWindow_inWord (j : Nat) (hj : j < 48) (v : Word) (s : State) :
    writeWindow (0x100 + 4 * j) v s = .next (storeInWord j v s) := by
  simp [writeWindow, regionOf_inWord j hj, storeInWord]

theorem writeWindow_ignored (off : Nat) (v : Word) (s : State) (hcmd : ¬(0x004 ≤ off ∧ off ≤ 0x007))
    (hin : ¬(0x100 ≤ off ∧ off ≤ 0x1BF)) : writeWindow off v s = .next s := by
  obtain ⟨hreg, -⟩ | ⟨hreg, -⟩ | ⟨-, -, hwrite⟩ := writeWindow_cases off v s
  · exact absurd ((regionOf_cmd_iff off).1 hreg) hcmd
  · exact absurd ((regionOf_inBuf_iff off).1 hreg) hin
  · exact hwrite

/-- Settles O26: the write stores the word of `IN` at its offset. -/
theorem inWordWrittenLittleEndian : Obligations.InWordWrittenLittleEndian := by
  intro s a v rest hpend hk hwidth haligned hfirst hlast
  have hadm : admitted a = true := (admitted_iff a).2 ⟨hwidth, haligned, by omega⟩
  obtain ⟨w, hw, hword⟩ := exists_inWord a.off haligned ⟨hfirst, hlast⟩
  rw [step_write s a rest hpend v hadm hk, hword, writeWindow_inWord w hw]
  exact ⟨_, rfl, read_storeInWord_inside w v s, read_storeInWord_outside w v s⟩

/-- Settles O27: no clause of the map but those of `CMD` and `IN` writes; the reads are cases of O25. -/
theorem otherWritesAreIgnored : Obligations.OtherWritesAreIgnored := by
  constructor
  · intro s a v rest hpend hk hwidth haligned hoff hcmd hin
    have hadm : admitted a = true := (admitted_iff a).2 ⟨hwidth, haligned, hoff⟩
    rw [step_write s a rest hpend v hadm hk, writeWindow_ignored _ v _ (by omega) hin]; rfl
  · intro s a rest hpend hk hwidth haligned hoff
    obtain ⟨v, hstep, -, hcmd, -, -, -, -, hlow, -, hafterIn, -, hafterOut, -, hafterCodebook, -, hhigh⟩ :=
      windowReadsByRegion s a rest hpend (.inl hk) hwidth haligned (by omega)
    have hzero : v = 0#32 := by
      obtain h | h | h | h | h | h := hoff
      · exact hcmd h
      · exact hlow h
      · exact hafterIn h
      · exact hafterOut h
      · exact hafterCodebook h
      · exact hhigh h.1
    rw [hstep, hzero]

/-- The stored word of `IN` reads back (R55). -/
theorem readWindow_storeInWord_same (j : Nat) (hj : j < 48) (v : Word) (s : State) :
    readWindow (storeInWord j v s) (0x100 + 4 * j) = v := by
  have hword : (0x100 + 4 * j - 0x100) / 4 = j := by omega
  have hbyte (k : Nat) (hk : k < 4) : inByte (storeInWord j v s) (4 * j + k) = v.extractLsb' (8 * k) 8 := by
    rw [← read_storeInWord_inside j v s k hk, Nat.add_assoc]; rfl
  calc readWindow (storeInWord j v s) (0x100 + 4 * j)
      = wordAt (inByte (storeInWord j v s)) j := by rw [readWindow_inBuf _ _ (regionOf_inWord j hj), hword]
    _ = wordOfBytes (v.extractLsb' 0 8) (v.extractLsb' 8 8) (v.extractLsb' 16 8) (v.extractLsb' 24 8) := by
        rw [wordAt, hbyte 1 (by decide), hbyte 2 (by decide), hbyte 3 (by decide)]
        exact congrArg (wordOfBytes · _ _ _) (hbyte 0 (by decide))
    _ = v := wordOfBytes_of_bytes v

/-- Storing a word of `IN` leaves every other word of the window as it reads (R55). -/
theorem readWindow_storeInWord_ne (j : Nat) (hj : j < 48) (v : Word) (s : State) (off : Nat) (haligned : off % 4 = 0)
    (hne : off ≠ 0x100 + 4 * j) : readWindow (storeInWord j v s) off = readWindow s off := by
  cases hreg : regionOf off with
  | inBuf =>
    have hin := (regionOf_inBuf_iff off).1 hreg
    rw [readWindow_inBuf _ _ hreg, readWindow_inBuf _ _ hreg]
    exact wordAt_congr _ _ _ fun k hk => read_storeInWord_outside j v s _ (by simp only [Config.inBase]; omega)
  | outBuf =>
    rw [readWindow_outBuf _ _ hreg, readWindow_outBuf _ _ hreg]
    exact wordAt_congr _ _ _ fun k _ => (outByte_writtenOnlyBy _).storeInWord j hj v s
  | _ => simp only [readWindow, hreg] <;> rfl

/-- What the window reads after a word of `IN` is stored (R58, R194). -/
theorem readWindow_storeInWord (j : Nat) (hj : j < 48) (v : Word) (s : State) (off : Nat) (haligned : off % 4 = 0) :
    readWindow (storeInWord j v s) off = if off = 0x100 + 4 * j then v else readWindow s off := by
  split
  next h => rw [h, readWindow_storeInWord_same j hj]
  next h => exact readWindow_storeInWord_ne j hj v s off haligned h

theorem admitted_wordAccess (kind : AccessKind) (off : Nat) (haligned : off % 4 = 0) (hoff : off < 4096) :
    admitted (wordAccess kind off) = true := (admitted_iff _).2 ⟨rfl, haligned, hoff⟩

theorem serveAll_pair (e e' : Event) (s t u : State) (h : serve e s = .next t) (h' : serve e' t = .next u) :
    serveAll [e, e'] s = .next u := by
  simp only [serveAll, h, h']

/-- Settles O32: the write stores the word of `IN`, and the read answers what the window then reads. -/
theorem readAfterInWriteSeesIt : Obligations.ReadAfterInWriteSeesIt := by
  intro s off off' v haligned hfirst hlast haligned' hoff'
  obtain ⟨j, hj, rfl⟩ := exists_inWord off haligned ⟨hfirst, hlast⟩
  have hwrite : serve (.access (wordAccess (.write v) (0x100 + 4 * j))) s =
      .next (storeInWord j v (s.setResponse .writeDone)) := by
    rw [serve, serveAccess_write _ v s (admitted_wordAccess _ _ haligned (by omega)) rfl]
    exact writeWindow_inWord j hj v _
  have hread (t : State) : serve (.access (wordAccess .read off')) t =
      .next (t.setResponse (.readData (readWindow t off'))) :=
    serveAccess_read _ t (admitted_wordAccess _ off' haligned' hoff') (.inl rfl)
  refine ⟨_, serveAll_pair _ _ s _ _ hwrite (hread _), ?_⟩
  rw [setResponse_response, readWindow_storeInWord j hj v _ off' haligned', readWindow_setResponse]

end Sys2Proof.Proofs
end

section
/-! PROOFS. O28, O29 and O31: which accesses are answered how, what of an access does not matter, and that every event
is served, in order (20_memory.md rules R54 to R63, 60_exceptions.md rules R173 and R179). -/

namespace Sys2Proof.Proofs
open Sys2Proof Sys2Proof.Machine

/-- A command does not touch the answer its write gets (R175). -/
theorem exec_response (i : Instr) (s t : State) (h : exec i s = .next t) : t.response = s.response := by
  obtain ⟨-, rfl⟩ | ⟨-, rfl⟩ := exec_cases i s t h
  · cases i <;> rfl
  · rfl

/-- A write of an admitted word completes, and does not touch the answer it gets (R56, R175). -/
theorem writeWindow_completes (off : Nat) (v : Word) (s : State) :
    ∃ t, writeWindow off v s = .next t ∧ t.response = s.response := by
  obtain ⟨-, hwrite⟩ | ⟨-, hwrite⟩ | ⟨-, -, hwrite⟩ := writeWindow_cases off v s
  · obtain ⟨t, hexec, -⟩ := exec_pending (decode v) s
    exact ⟨t, hwrite.trans hexec, exec_response _ s t hexec⟩
  · exact ⟨_, hwrite, rfl⟩
  · exact ⟨_, hwrite, rfl⟩

/-- Settles O28: by admission, and the kind of an admitted access. -/
theorem unadmittedAccessChangesNothing : Obligations.UnadmittedAccessChangesNothing := by
  refine fun s a rest hpend => ⟨fun h => ?_, fun h => ?_⟩
  · refine step_unadmitted s a rest hpend (Bool.eq_false_iff.2 fun hadm => ?_)
    have := (admitted_iff a).1 hadm
    omega
  · have hadm : admitted a = true := (admitted_iff a).2 h
    cases hk : a.kind with
    | read => exact ⟨_, step_read s a rest hpend hadm (.inl hk), .inr ⟨_, rfl⟩⟩
    | fetch => exact ⟨_, step_read s a rest hpend hadm (.inr hk), .inr ⟨_, rfl⟩⟩
    | write v =>
      obtain ⟨t, hwrite, hresponse⟩ := writeWindow_completes a.off v ((s.setPending rest).setResponse .writeDone)
      exact ⟨t, (step_write s a rest hpend v hadm hk).trans hwrite, .inl hresponse⟩

/-- Admission looks at the offset and the width alone (R54). -/
theorem admitted_congr (a a' : Access) (hoff : a'.off = a.off) (hwidth : a'.width = a.width) :
    admitted a' = admitted a := by
  rw [admitted, admitted, hoff, hwidth]

/-- Settles O29: serving looks at the offset, the width and the kind, and a fetch answers what a read does. -/
theorem masterModeAndExclusivityAreIgnored : Obligations.MasterModeAndExclusivityAreIgnored := by
  intro s a a' hkind hoff hwidth
  have hadm := admitted_congr a a' hoff hwidth
  obtain hk | ⟨hfetch, hread⟩ := hkind
  · simp only [serve, serveAccess, hadm, hk, hoff]
  · simp only [serve, serveAccess, hadm, hfetch, hread, hoff]

theorem run_succ_of_next (M : Host.Core) (n : Nat) (s t : M.State) (h : M.step s = .next t) :
    M.run (n + 1) s = M.run n t := by
  simp only [Host.Core.run, h]

/-- As many steps as there are pending events are the serving of those events in order (R58, R196). -/
theorem run_eq_serveAll (es : List Event) : ∀ s : State, s.pending = es →
    ∃ t, Host.Core.run Sys2Proof.core es.length s = .next t ∧ t.pending = [] ∧
      serveAll es (s.setPending []) = .next t := by
  induction es with
  | nil =>
    intro s hpend
    refine ⟨s, rfl, hpend, ?_⟩
    rw [serveAll, ← hpend]; rfl
  | cons e rest ih =>
    intro s hpend
    obtain ⟨t, hserve, hrest, hany⟩ := serve_pending e (s.setPending rest)
    have hstep : Sys2Proof.core.step s = .next t := (step_cons s e rest hpend).trans hserve
    have hfirst : serve e (s.setPending []) = .next (t.setPending []) := hany []
    obtain ⟨u, hrun, hdone, hall⟩ := ih t hrest
    refine ⟨u, ?_, hdone, ?_⟩
    · exact (run_succ_of_next Sys2Proof.core rest.length s t hstep).trans hrun
    · rw [serveAll, hfirst]; exact hall

/-- Settles O31: one step by `serve_pending`, and all of them by `run_eq_serveAll`. -/
theorem eventsAreServedInOrderAndAllComplete : Obligations.EventsAreServedInOrderAndAllComplete := by
  refine ⟨fun s e rest hpend => ?_, step_idle, fun s => run_eq_serveAll s.pending s rfl⟩
  obtain ⟨t, hserve, hrest, -⟩ := serve_pending e (s.setPending rest)
  have hstep := step_cons s e rest hpend
  exact ⟨hstep, t, hstep.trans hserve, hrest⟩

end Sys2Proof.Proofs
end

section
/-! PROOFS. O1, O2 and O4: command words and commands are the same thing (30_encoding.md rules R70, R73 and R76). The
five fields fill the word, and the opcode and the other fields are all a command holds. -/

namespace Sys2Proof.Proofs
open Sys2Proof Sys2Proof.Machine

theorem opField_packWord (op : BitVec 4) (f : Fields) : opField (packWord op f) = op :=
  BitVec.extractLsb'_append_eq_right

/-- What is taken out of a packed word, given bit by bit (R70). -/
theorem extractLsb'_packWord (op : BitVec 4) (f : Fields) {start len : Nat} (v : BitVec len)
    (h : ∀ k < len, (packWord op f).getLsbD (start + k) = v.getLsbD k) :
    (packWord op f).extractLsb' start len = v :=
  BitVec.eq_of_getLsbD_eq fun k hk => by simp [hk, h k hk]

theorem fieldsOf_packWord (op : BitVec 4) (f : Fields) : fieldsOf (packWord op f) = f := by
  obtain ⟨rsv0, arg, rsv1, len⟩ := f
  simp only [fieldsOf, Fields.mk.injEq]
  refine ⟨?rsv0, ?arg, ?rsv1, ?len⟩
  all_goals
    refine extractLsb'_packWord op _ _ fun k hk => ?_
    rw [Laws.packWord_bit _ _ _ (by omega)]
    simp (disch := omega) only [if_neg, if_pos, Nat.add_sub_cancel_left]

/-- A word is put together from its own fields: no bit of it is outside them (R70). -/
theorem packWord_opField_fieldsOf (w : Word) : packWord (opField w) (fieldsOf w) = w := by
  refine BitVec.eq_of_getLsbD_eq fun k hk => ?_
  rw [Laws.packWord_bit _ _ k hk]
  simp only [opField, fieldsOf, BitVec.getLsbD_extractLsb']
  repeat' split
  all_goals
    rw [decide_eq_true (by omega), Bool.true_and]
    congr 1
    omega

theorem fields_commandOf (op : BitVec 4) (f : Fields) : (commandOf op f).fields = f := by
  unfold commandOf
  split <;> rfl

/-- The fields of the command a word decodes to are the word's. -/
theorem fields_decode (w : Word) : (decode w).fields = fieldsOf w := fields_commandOf _ _

theorem commandOf_of_eight_le (op : BitVec 4) (h : 8 ≤ op.toNat) (f : Fields) :
    commandOf op f = .reservedHigh (op.extractLsb' 0 3) f := by
  unfold commandOf
  split
  iterate 8
    next hop => omega
  next => rfl

/-- A command is its opcode and its fields (R72, R74). -/
theorem commandOf_opcode_fields (i : Instr) : commandOf i.opcode i.fields = i := by
  cases i with
  | reservedHigh low f =>
    have hhigh : 8 ≤ (1#1 ++ low).toNat := by revert low; decide
    calc commandOf (1#1 ++ low) f
        = .reservedHigh ((1#1 ++ low).extractLsb' 0 3) f := commandOf_of_eight_le _ hhigh f
      _ = .reservedHigh low f := by rw [BitVec.extractLsb'_append_eq_right]
  | _ => rfl

/-- Settles O1: the word gives back the opcode and the fields, and these give back the command. -/
theorem decodeOfEncodeIsIdentity : Obligations.DecodeOfEncodeIsIdentity := fun i =>
  calc decode (encode i)
      = commandOf i.opcode i.fields := by rw [decode, encode, opField_packWord, fieldsOf_packWord]
    _ = i := commandOf_opcode_fields i

/-- Settles O2: the command keeps the opcode and the fields of the word, and these give back the word. -/
theorem encodeOfDecodeIsIdentity : Obligations.EncodeOfDecodeIsIdentity := fun w =>
  calc encode (decode w)
      = packWord (opField w) (fieldsOf w) := by rw [encode, opcode_decode, fields_decode, opField]
    _ = w := packWord_opField_fieldsOf w

/-- Two words never decode to the same command (R73, R76). -/
theorem decode_injective : Function.Injective decode := Function.LeftInverse.injective encodeOfDecodeIsIdentity

/-- Settles O4: the fields of each word compute. -/
theorem canonicalWordsDecode : Obligations.CanonicalWordsDecode := ⟨rfl, rfl, rfl, rfl, rfl, rfl, rfl, rfl, rfl⟩

end Sys2Proof.Proofs
end

section
/-! PROOFS. O3: the rows of the opcode table as sets of words (30_encoding.md rules R72 and R74). -/

namespace Sys2Proof.Proofs
open Sys2Proof Sys2Proof.Machine

/-- Two neighbouring parts of a word, read as one. -/
theorem extractLsb'_eq_append_iff (w : Word) (start m n : Nat) (x : BitVec m) (y : BitVec n) :
    w.extractLsb' start (m + n) = x ++ y ↔ w.extractLsb' (start + n) m = x ∧ w.extractLsb' start n = y := by
  rw [← BitVec.extractLsb'_append_extractLsb'_eq_extractLsb' rfl]
  constructor
  · intro h
    have hx := congrArg (BitVec.extractLsb' n m) h
    have hy := congrArg (BitVec.extractLsb' 0 n) h
    rw [BitVec.extractLsb'_append_eq_left, BitVec.extractLsb'_append_eq_left] at hx
    rw [BitVec.extractLsb'_append_eq_right, BitVec.extractLsb'_append_eq_right] at hy
    exact ⟨hx, hy⟩
  · rintro ⟨rfl, rfl⟩; rfl

theorem extractLsb'_extractLsb' (w : Word) (start len start' len' : Nat) (h : start' + len' ≤ len) :
    (w.extractLsb' start len).extractLsb' start' len' = w.extractLsb' (start + start') len' := by
  refine BitVec.eq_of_getLsbD_eq fun k hk => ?_
  have hin : start' + k < len := by omega
  simp [hk, hin, Nat.add_assoc]

/-- Bits 15:12 of a word are bits 7:4 of `ARG` (R70). -/
theorem argHigh_eq (w : Word) : w.extractLsb' 12 4 = (fieldsOf w).arg.extractLsb' 4 4 :=
  (extractLsb'_extractLsb' w 8 8 4 4 (by decide)).symm

/-- Bit 3 of a word is the highest of `OP` (R70). -/
theorem bit3_eq (w : Word) : w.extractLsb' 3 1 = (decode w).opcode.extractLsb' 3 1 := by
  rw [opcode_decode]
  exact (extractLsb'_extractLsb' w 0 4 3 1 (by decide)).symm

/-- The low byte of a word is `RSV0` above `OP` (R70). -/
theorem lowByte_eq_iff (w : Word) (x y : BitVec 4) :
    w.extractLsb' 0 8 = x ++ y ↔ (decode w).fields.rsv0 = x ∧ (decode w).opcode = y := by
  rw [fields_decode, opcode_decode]
  exact extractLsb'_eq_append_iff w 0 4 4 x y

/-- Bits 31:16 of a word are `LEN` above `RSV1` (R70). -/
theorem highHalf_eq_zero_iff (w : Word) :
    w.extractLsb' 16 16 = 0#16 ↔ (decode w).fields.len = 0#8 ∧ (decode w).fields.rsv1 = 0#8 := by
  rw [fields_decode]
  exact extractLsb'_eq_append_iff w 16 8 8 0#8 0#8

theorem bits31_12_eq_zero_iff (w : Word) : w.extractLsb' 12 20 = 0#20 ↔
    ((decode w).fields.len = 0#8 ∧ (decode w).fields.rsv1 = 0#8) ∧
      (decode w).fields.arg.extractLsb' 4 4 = 0#4 := by
  rw [← highHalf_eq_zero_iff, fields_decode, ← argHigh_eq]
  exact extractLsb'_eq_append_iff w 12 16 4 0#16 0#4

/-- A command with only its length set, as its row of the table asks for it (R72). -/
theorem onlyLength_iff (f : Fields) (l : Byte) : (f.reservedClear = true ∧ f.arg = 0#8) ∧ f.len = l ↔
    f = { rsv0 := 0#4, arg := 0#8, rsv1 := 0#8, len := l } :=
  ⟨fun h => Laws.fields_eq f l (by simpa using h), fun h => by simp [h, Fields.reservedClear]⟩

theorem reservedClear_iff (f : Fields) : f.reservedClear = true ↔ f.rsv0 = 0#4 ∧ f.rsv1 = 0#8 := by
  simp [Fields.reservedClear]

/-- Settles O3: a row with no free bit is one command, by O2 and O4, and the others are conditions on the fields. -/
theorem wellFormedWordsAreTableRows : Obligations.WellFormedWordsAreTableRows := by
  intro w
  obtain ⟨hnop, -, -, hxfwd, hxrev, hencode, hdecode, -, -⟩ := canonicalWordsDecode
  simp only [← decode_injective.eq_iff (a := w), hnop, hxfwd, hxrev, hencode, hdecode,
    show 1#8 = 0#4 ++ 1#4 from rfl, show 2#8 = 0#4 ++ 2#4 from rfl, lowByte_eq_iff, bits31_12_eq_zero_iff,
    highHalf_eq_zero_iff, bit3_eq, ← opcode_decode w]
  generalize decode w = i
  cases i with
  | nop f | xfwd f | xrev f | encode f | decode f => simp [Instr.wf, Instr.opcode, onlyLength_iff]
  | encnib f | lookup f =>
    simp [Instr.wf, Instr.opcode, Instr.fields, reservedClear_iff, and_assoc, and_comm, and_left_comm]
  | reserved7 f => simp [Instr.wf, Instr.opcode]
  | reservedHigh low f =>
    have hbit3 : (1#1 ++ low).extractLsb' 3 1 = 1#1 := BitVec.extractLsb'_append_eq_left
    simp [Instr.wf, Instr.opcode, hbit3]

end Sys2Proof.Proofs
end

section
/-! PROOFS. O7 and O15: the outcome of every command word (30_encoding.md rules R74 and R79, 60_exceptions.md rule
R174). -/

namespace Sys2Proof.Proofs
open Sys2Proof Sys2Proof.Machine

/-- The end of the command `i` run from `s` that `STATUS.ERR` reports as `c`: it ran, or it changed `STATUS.ERR` and
nothing else (R100, R172). -/
def EndsWith (i : Instr) (s : State) : ErrCode → Prop
  | .ok => ∃ t, exec i s = .next t ∧ t.err = 0#4
  | .length => exec i s = .next { s with err := 1#4 }
  | .opcode => exec i s = .next { s with err := 2#4 }
  | .reserved => exec i s = .next { s with err := 3#4 }

theorem endsWith_verdict (i : Instr) (s : State) : EndsWith i s (verdict i) := by
  have hexec := exec_eq i s
  cases hv : verdict i with
  | ok => rw [hv] at hexec; exact ⟨_, hexec, rfl⟩
  | length | opcode | reserved => rw [hv] at hexec; exact hexec

/-- The checks of the decode function in its order, on an opcode and the other fields (R79). -/
def fieldCheck (op : Nat) (f : Fields) : ErrCode :=
  if 7 ≤ op then .opcode
  else if f.rsv0 ≠ 0#4 ∨ f.rsv1 ≠ 0#8 then .reserved
  else if op = 0 then (if f.arg ≠ 0#8 ∨ f.len ≠ 0#8 then .reserved else .ok)
  else if op = 1 then (if f.arg.extractLsb' 4 4 ≠ 0#4 ∨ f.len ≠ 0#8 then .reserved else .ok)
  else if op = 2 then (if f.len ≠ 0#8 then .reserved else .ok)
  else if f.arg ≠ 0#8 then .reserved
  else if op = 6 then (if f.len ≠ 192#8 then .length else .ok)
  else (if f.len ≠ 48#8 then .length else .ok)

theorem fieldCheck_of_seven_le (op : Nat) (f : Fields) (h : 7 ≤ op) : fieldCheck op f = .opcode := if_pos h

/-- The checks of each command's meaning are those of the decode function (R79, R174). -/
theorem verdict_eq_fieldCheck (i : Instr) : verdict i = fieldCheck i.opcode.toNat i.fields := by
  cases i with
  | nop f => simp only [verdict, checkNoOperand, fieldCheck, Instr.opcode, Instr.fields]; grind
  | encnib f => simp only [verdict, checkNibbleOperand, fieldCheck, Instr.opcode, Instr.fields]; grind
  | lookup f => simp only [verdict, checkByteOperand, fieldCheck, Instr.opcode, Instr.fields]; grind
  | xfwd f | xrev f | encode f | decode f =>
    simp only [verdict, checkBufferOperand, fieldCheck, Instr.opcode, Instr.fields]; grind
  | reserved7 f => exact (fieldCheck_of_seven_le _ f le_rfl).symm
  | reservedHigh low f => exact (fieldCheck_of_seven_le _ f (seven_le_high_opcode low)).symm

/-- Settles O7: a command ends as its checks say, and they are the decode function's on the fields of the word. -/
theorem commandWordOutcomeByClass : Obligations.CommandWordOutcomeByClass := by
  intro w s
  have hend := endsWith_verdict (decode w) s
  rw [verdict_eq_fieldCheck, opcode_decode, fields_decode] at hend
  simp only [fieldCheck, apply_ite (EndsWith (decode w) s), ← argHigh_eq] at hend
  exact hend

/-- A reserved opcode fails with `ERR_OPCODE` (R74). -/
theorem exec_of_seven_le_opcode (i : Instr) (s : State) (h : 7 ≤ i.opcode.toNat) :
    exec i s = .next { s with err := 2#4 } := by
  have hend := endsWith_verdict i s
  rwa [verdict_eq_fieldCheck, fieldCheck_of_seven_le _ _ h] at hend

/-- Settles O15: in each clause the opcode is 7 or more. -/
theorem reservedOpcodesFail : Obligations.ReservedOpcodesFail :=
  ⟨fun w s h => exec_of_seven_le_opcode (decode w) s (by rwa [opcode_decode]),
    fun f s => exec_of_seven_le_opcode (.reserved7 f) s le_rfl,
    fun low f s => exec_of_seven_le_opcode (.reservedHigh low f) s (seven_le_high_opcode low)⟩

end Sys2Proof.Proofs
end

section
/-! PROOFS. O5: the words of the assembler (30_encoding.md rule R77). -/

namespace Sys2Proof.Proofs
open Sys2Proof Sys2Proof.Machine

/-- A packed word as a number, each field at its place (R70). -/
theorem packWord_toNat (op : BitVec 4) (f : Fields) : (packWord op f).toNat =
    op.toNat + 2 ^ 4 * f.rsv0.toNat + 2 ^ 8 * f.arg.toNat + 2 ^ 16 * f.rsv1.toNat + 2 ^ 24 * f.len.toNat := by
  have happend {m n : Nat} (x : BitVec m) (y : BitVec n) : (x ++ y).toNat = 2 ^ n * x.toNat + y.toNat := by
    rw [BitVec.toNat_append, ← Nat.shiftLeft_add_eq_or_of_lt y.isLt, Nat.shiftLeft_eq, Nat.mul_comm]
  simp only [packWord, happend]
  omega

/-- The word of an opcode and a byte in `ARG` (R77). -/
theorem ofNat_eq_packWord_arg (op : BitVec 4) (n : Nat) (hn : n ≤ 255) : BitVec.ofNat 32 (op.toNat + n * 2 ^ 8) =
    packWord op { rsv0 := 0#4, arg := BitVec.ofNat 8 n, rsv1 := 0#8, len := 0#8 } := by
  refine BitVec.eq_of_toNat_eq ?_
  have hop := op.isLt
  simp only [packWord_toNat, BitVec.toNat_ofNat]
  omega

/-- The word of an opcode and a byte in `LEN` (R77). -/
theorem asmLength_eq (op : BitVec 4) (l : Nat) (hl : l ≤ 255) : asmLength op.toNat l =
    some (packWord op { rsv0 := 0#4, arg := 0#8, rsv1 := 0#8, len := BitVec.ofNat 8 l }) := by
  rw [asmLength, if_pos hl, Option.some_inj]
  refine BitVec.eq_of_toNat_eq ?_
  have hop := op.isLt
  simp only [packWord_toNat, BitVec.toNat_ofNat]
  omega

theorem assemble_cmd_toNat (w : Word) : assemble (.cmd w.toNat) = some w := by
  simp [assemble, w.isLt]

/-- Settles O5: the operand forms by the numbers of their words, the default lengths by computing. -/
theorem assemblerSpellsCommandWords : Obligations.AssemblerSpellsCommandWords := by
  refine ⟨rfl, fun n hn => ?encnib, fun b hb => ?lookup, fun l hl => ?length, ⟨rfl, rfl, rfl, rfl⟩, assemble_cmd_toNat,
    fun n hn => ?encnibRange, fun b hb => ?lookupRange⟩
  case encnib => rw [assemble, if_pos hn]; exact congrArg some (ofNat_eq_packWord_arg 1#4 n (by omega))
  case lookup => rw [assemble, if_pos hb]; exact congrArg some (ofNat_eq_packWord_arg 2#4 b hb)
  case length => exact ⟨asmLength_eq 3#4 l hl, asmLength_eq 4#4 l hl, asmLength_eq 5#4 l hl, asmLength_eq 6#4 l hl⟩
  case encnibRange => rw [assemble, if_neg (by omega)]
  case lookupRange => rw [assemble, if_neg (by omega)]

end Sys2Proof.Proofs
end

section
/-! PROOFS. O19: what a command leaves comes from its word and `IN` (40_command.md rules R100 and R103). -/

namespace Sys2Proof.Proofs
open Sys2Proof Sys2Proof.Machine

/-- Two states that hold the same `IN` (R28). -/
def SameIn (s s' : State) : Prop := ∀ k < 192, inByte s k = inByte s' k

/-- The operand of a buffer command is the same from two states with the same `IN`. -/
theorem SameIn.inBytes_eq {s s' : State} (h : SameIn s s') {n : Nat} (hn : n ≤ 192) : inBytes s n = inBytes s' n :=
  List.map_congr_left fun k hk => h k (Nat.lt_of_lt_of_le (List.mem_range.mp hk) hn)

/-- From `s` to `t` and from `s'` to `t'` the part `part` of the state ends equal, or unchanged in both. -/
def EqualOrKept {α : Type} (part : State → α) (s s' t t' : State) : Prop :=
  part t = part t' ∨ (part t = part s ∧ part t' = part s')

/-- What the commands perform on the part `part` of the state comes from their word and `IN` alone. -/
structure ComputedFromIn {α : Type} (part : State → α) : Prop where
  setErr : ∀ s v, part (s.setErr v) = part s
  effect : ∀ i s s', SameIn s s' → EqualOrKept part s s' (effect i s) (effect i s')

theorem decErr_computedFromIn : ComputedFromIn State.decErr where
  setErr := setErr_decErr
  effect i _ _ hin := by
    cases i with
    | decode => exact .inl (by simp only [effect, setOutLen_decErr, setDecErr_decErr, hin.inBytes_eq le_rfl])
    | _ => exact .inr ⟨rfl, rfl⟩

theorem ambig_computedFromIn : ComputedFromIn State.ambig where
  setErr := setErr_ambig
  effect i _ _ _ := by
    cases i with
    | lookup => exact .inl rfl
    | _ => exact .inr ⟨rfl, rfl⟩

theorem result_computedFromIn : ComputedFromIn State.result where
  setErr := setErr_result
  effect i _ _ _ := by
    cases i with
    | encnib | lookup => exact .inl rfl
    | _ => exact .inr ⟨rfl, rfl⟩

theorem outLen_computedFromIn : ComputedFromIn State.outLen where
  setErr := setErr_outLen
  effect i _ _ _ := by
    cases i with
    | xfwd | xrev | encode | decode => exact .inl (by simp only [effect, setOutLen_outLen])
    | _ => exact .inr ⟨rfl, rfl⟩

/-- The same bytes written to `OUT` of two states: a byte in their range ends equal, one past it is kept (R29). -/
theorem outByte_writeOut_equalOrKept (s s' : State) (bs : List Byte) (k : Nat) :
    EqualOrKept (outByte · k) s s' (s.writeOut bs) (s'.writeOut bs) := by
  by_cases hk : k < bs.length
  · exact .inl (by simp only [outByte_writeOut, if_pos hk])
  · exact .inr (by simp only [outByte_writeOut, if_neg hk, and_self])

@[simp] theorem outByte_setOutLen (s : State) (v : Byte) (k : Nat) : outByte (s.setOutLen v) k = outByte s k := rfl
@[simp] theorem outByte_setDecErr (s : State) (v : Bool) (k : Nat) : outByte (s.setDecErr v) k = outByte s k := rfl
@[simp] theorem outByte_setErr (s : State) (v : BitVec 4) (k : Nat) : outByte (s.setErr v) k = outByte s k := rfl

theorem outByte_computedFromIn (k : Nat) : ComputedFromIn (outByte · k) where
  setErr s v := outByte_setErr s v k
  effect i s s' hin := by
    cases i with
    | xfwd | xrev | encode | decode =>
      simp only [EqualOrKept, effect, outByte_setOutLen, outByte_setDecErr, hin.inBytes_eq (show 48 ≤ 192 by decide),
        hin.inBytes_eq le_rfl]
      exact outByte_writeOut_equalOrKept s s' _ k
    | _ => exact .inr ⟨rfl, rfl⟩

/-- A command passes or fails its checks from both states alike, and a failing one changes `STATUS.ERR` alone (R172). -/
theorem ComputedFromIn.of_exec {α : Type} {part : State → α} (hpart : ComputedFromIn part) (i : Instr)
    (s s' t t' : State) (hin : SameIn s s') (h : exec i s = .next t) (h' : exec i s' = .next t') :
    EqualOrKept part s s' t t' := by
  obtain ⟨hok, rfl⟩ | ⟨hfails, rfl⟩ := exec_cases i s t h
  · obtain ⟨-, rfl⟩ | ⟨hfails, -⟩ := exec_cases i s' t' h'
    · simpa only [EqualOrKept, hpart.setErr] using hpart.effect i s s' hin
    · exact absurd hok hfails
  · obtain ⟨hok, -⟩ | ⟨-, rfl⟩ := exec_cases i s' t' h'
    · exact absurd hok hfails
    · exact .inr ⟨hpart.setErr s _, hpart.setErr s' _⟩

/-- After a command `STATUS.ERR` holds the code of its checks (R101, R170). -/
theorem err_exec (i : Instr) (s t : State) (h : exec i s = .next t) : t.err = (verdict i).code := by
  obtain ⟨hok, rfl⟩ | ⟨-, rfl⟩ := exec_cases i s t h
  · rw [hok]; rfl
  · rfl

/-- Settles O19: `STATUS.ERR` is the code of the checks, and every other part is computed from the word and `IN`. -/
theorem commandsReadOnlyIn : Obligations.CommandsReadOnlyIn := by
  intro i s s' t t' hin h h'
  exact ⟨(err_exec i s t h).trans (err_exec i s' t' h').symm,
    decErr_computedFromIn.of_exec i s s' t t' hin h h',
    ambig_computedFromIn.of_exec i s s' t t' hin h h',
    result_computedFromIn.of_exec i s s' t t' hin h h',
    outLen_computedFromIn.of_exec i s s' t t' hin h h',
    fun k _ => (outByte_computedFromIn k).of_exec i s s' t t' hin h h'⟩

end Sys2Proof.Proofs
end

section
/-! PROOFS. O8: `NOP`, and why no other command clears `STATUS.ERR` alone (40_command.md rule R105). -/

namespace Sys2Proof.Proofs
open Sys2Proof Sys2Proof.Machine

/-- Two commands never have the same word (R70, R76). -/
theorem encode_injective : Function.Injective encode := Function.LeftInverse.injective decodeOfEncodeIsIdentity

/-- The one legal `NOP` (R72). -/
theorem wf_nop_iff (f : Fields) :
    (Instr.nop f).wf = true ↔ f = { rsv0 := 0#4, arg := 0#8, rsv1 := 0#8, len := 0#8 } := by
  simp only [Instr.wf, Bool.and_eq_true, beq_iff_eq]
  exact onlyLength_iff f 0#8

theorem wf_nop_iff_encode_eq_zero (f : Fields) : (Instr.nop f).wf = true ↔ encode (.nop f) = 0x00000000#32 :=
  calc (Instr.nop f).wf = true
      ↔ Instr.nop f = .nop { rsv0 := 0#4, arg := 0#8, rsv1 := 0#8, len := 0#8 } := by rw [wf_nop_iff, Instr.nop.injEq]
    _ ↔ encode (.nop f) = encode (.nop { rsv0 := 0#4, arg := 0#8, rsv1 := 0#8, len := 0#8 }) :=
      encode_injective.eq_iff.symm

/-- `NOP` performs nothing: `STATUS.ERR` is all it changes (R105). -/
theorem exec_nop (f : Fields) (s : State) : exec (.nop f) s = .next (s.setErr (checkNoOperand f).code) := by
  rw [exec_eq, verdict]
  cases checkNoOperand f <;> rfl

/-- A state with a `RESULT` and an `OUT_LEN` that no command writes, so that writing either shows (R25, R26). -/
def markedState : State := { State.reset with result := 0xFF#8, outLen := 0xFF#8 }

theorem codeword_ne_mark (n : Nibble) : codeword n ≠ 0xFF#8 := fun h =>
  absurd (h ▸ codeword_mem_codebook n) (by decide)

theorem reverseMap_ne_mark (v : Byte) : (reverseMap v).setWidth 8 ≠ 0xFF#8 := fun h => by
  have hle := reverseMap_le_sentinel v
  have hnat := congrArg BitVec.toNat h
  simp only [BitVec.toNat_setWidth, BitVec.toNat_ofNat] at hnat
  omega

/-- Every command that is performed writes `RESULT` or `OUT_LEN`, except `NOP`. -/
theorem exists_nop_of_effect_markedState (i : Instr) (hok : verdict i = .ok)
    (hresult : (effect i markedState).result = 0xFF#8) (houtLen : (effect i markedState).outLen = 0xFF#8) :
    ∃ f, i = .nop f := by
  cases i with
  | nop f => exact ⟨f, rfl⟩
  | encnib f => exact absurd hresult (codeword_ne_mark (nibbleOperand f))
  | lookup f => exact absurd hresult (reverseMap_ne_mark (byteOperand f))
  | xfwd | xrev | encode | decode => exact absurd houtLen (by simp [effect])
  | reserved7 | reservedHigh => exact absurd hok (by simp [verdict])

/-- A command that answers `markedState` with `STATUS.ERR` 0 and nothing else changed is the legal `NOP`. -/
theorem eq_nop_of_exec_markedState (i : Instr) (h : exec i markedState = .next { markedState with err := 0#4 }) :
    i = .nop { rsv0 := 0#4, arg := 0#8, rsv1 := 0#8, len := 0#8 } := by
  have hok : verdict i = .ok := (code_eq_zero _).1 (err_exec i _ _ h).symm
  obtain ⟨-, heq⟩ | ⟨hfails, -⟩ := exec_cases i _ _ h
  · obtain ⟨f, rfl⟩ := exists_nop_of_effect_markedState i hok (congrArg State.result heq).symm
      (congrArg State.outLen heq).symm
    rw [(wf_nop_iff f).1 ((verdict_eq_ok_iff _).1 hok).1]
  · exact absurd hok hfails

/-- Settles O8: the word by the injectivity of the encoding, the two outcomes by `exec_nop`, and that no other command
does the same by the one state `markedState`. -/
theorem nopClearsErrOnly : Obligations.NopClearsErrOnly := by
  refine ⟨wf_nop_iff_encode_eq_zero, fun f s => ⟨fun hlegal => ?legal, fun hset => ?illegal⟩,
    fun i h => eq_nop_of_exec_markedState i (h markedState)⟩
  case legal => rw [exec_nop, checkNoOperand, if_pos hlegal]; rfl
  case illegal => rw [exec_nop, checkNoOperand, if_neg hset]; rfl

end Sys2Proof.Proofs
end

section
/-! PROOFS. O34, O35, O36 and O38: the tables are what their builders make, the ReverseMap gives the unique nearest
codeword, and one wrong bit leaves a codeword the nearest (41_codebook.md rules R112 to R119). -/

namespace Sys2Proof.Proofs
open Sys2Proof Sys2Proof.Machine

/-- The scan of rule R112 run over all its candidates. -/
theorem acceptedCodewords_eq : acceptedCodewords = [0xAA#8, 0x55#8, 0x03#8, 0x0C#8, 0x16#8, 0x19#8, 0x25#8, 0x30#8,
    0x3F#8, 0x4A#8, 0x66#8, 0x69#8, 0x73#8, 0x7C#8, 0x8F#8, 0xC0#8] := by
  decide +kernel

/-- Settles O34: 16 values are accepted, so the builder answers them, and sorted they are the Codebook. -/
theorem codebookIsBuilderOutput : Obligations.CodebookIsBuilderOutput := by
  refine ⟨?_, acceptedCodewords_eq⟩
  have henough : ¬acceptedCodewords.length < Config.cbSize := by rw [acceptedCodewords_eq]; decide
  have hsorted : sortAscending acceptedCodewords = codebook := by rw [acceptedCodewords_eq]; decide
  rw [buildCodebook, if_neg henough, hsorted]

/-- Settles O35: the builder run on every byte, and compared with the table. -/
theorem reverseMapIsBuilderOutput : Obligations.ReverseMapIsBuilderOutput := by
  unfold Obligations.ReverseMapIsBuilderOutput
  decide +kernel

/-- The codeword of index `n` is nearer to `v` than every other codeword of `cb`. -/
def UniqueNearest (cb : List Byte) (v : Byte) (n : Nat) : Prop :=
  n < cb.length ∧ ∀ m < cb.length, m ≠ n → hd v (byteAt cb n) < hd v (byteAt cb m)

theorem byteAt_mem (cb : List Byte) (n : Nat) (hn : n < cb.length) : byteAt cb n ∈ cb := by
  rw [byteAt, List.getD_eq_getElem cb _ hn]
  exact List.getElem_mem hn

theorem min?_distances (cb : List Byte) (v : Byte) :
    (Config.cwBits :: cb.map (hd v)).min? = some (leastDistance cb v) := List.min?_cons'

/-- No codeword is nearer than the least distance. -/
theorem leastDistance_le (cb : List Byte) (v : Byte) (n : Nat) (hn : n < cb.length) :
    leastDistance cb v ≤ hd v (byteAt cb n) :=
  (List.min?_eq_some_iff.1 (min?_distances cb v)).2 _
    (List.mem_cons_of_mem _ (List.mem_map_of_mem (byteAt_mem cb n hn)))

/-- Some codeword is at the least distance: the bound 8 the minimum starts from is no less than any distance. -/
theorem exists_hd_eq_leastDistance (cb : List Byte) (v : Byte) (hne : 0 < cb.length) :
    ∃ n < cb.length, hd v (byteAt cb n) = leastDistance cb v := by
  obtain hbound | hdist := List.mem_cons.1 (List.min?_eq_some_iff.1 (min?_distances cb v)).1
  · exact ⟨0, hne, le_antisymm (hbound ▸ hd_le_eight v _) (leastDistance_le cb v 0 hne)⟩
  · obtain ⟨c, hc, hleast⟩ := List.mem_map.1 hdist
    obtain ⟨n, hn, rfl⟩ := List.getElem_of_mem hc
    exact ⟨n, hn, by rw [byteAt, List.getD_eq_getElem cb _ hn, hleast]⟩

theorem mem_nearestIndices_iff (cb : List Byte) (v : Byte) (n : Nat) :
    n ∈ nearestIndices cb v ↔ n < cb.length ∧ hd v (byteAt cb n) = leastDistance cb v := by
  simp [nearestIndices]

theorem nearestIndices_eq_singleton_iff_mem (cb : List Byte) (v : Byte) (n : Nat) :
    nearestIndices cb v = [n] ↔ ∀ m, m ∈ nearestIndices cb v ↔ m = n := by
  have hnodup : (nearestIndices cb v).Nodup := List.nodup_range.filter _
  rw [← List.perm_singleton, List.perm_ext_iff_of_nodup hnodup (List.nodup_singleton n)]
  simp only [List.mem_singleton]

/-- The builder finds one index exactly when the minimum is attained there alone (R115). -/
theorem nearestIndices_eq_singleton_iff (cb : List Byte) (v : Byte) (n : Nat) :
    nearestIndices cb v = [n] ↔ UniqueNearest cb v n := by
  simp only [nearestIndices_eq_singleton_iff_mem, mem_nearestIndices_iff]
  constructor
  · intro honly
    obtain ⟨hn, hleast⟩ := (honly n).2 rfl
    refine ⟨hn, fun m hm hmn => lt_of_le_of_ne (hleast ▸ leastDistance_le cb v m hm) fun heq => ?_⟩
    exact hmn ((honly m).1 ⟨hm, heq ▸ hleast⟩)
  · rintro ⟨hn, hnearer⟩
    obtain ⟨k, hk, hleast⟩ := exists_hd_eq_leastDistance cb v (by omega)
    have hunique (m : Nat) (hm : m < cb.length) (hmin : hd v (byteAt cb m) = leastDistance cb v) : m = n := by
      by_contra hmn
      have hlt := hnearer m hm hmn
      have hle := leastDistance_le cb v n hn
      omega
    obtain rfl := hunique k hk hleast
    exact fun m => ⟨fun ⟨hm, hmin⟩ => hunique m hm hmin, fun h => h ▸ ⟨hk, hleast⟩⟩

/-- The builder's entry is an index below `SENTINEL` exactly for the unique nearest codeword (R115). -/
theorem buildReverseMapEntry_eq_iff (cb : List Byte) (v : Byte) (n : Nat) (hn : n < Config.sentinel) :
    buildReverseMapEntry cb v = n ↔ UniqueNearest cb v n := by
  rw [← nearestIndices_eq_singleton_iff, buildReverseMapEntry]
  split
  next k hk => simp [hk]
  next hnone => exact ⟨fun h => absurd h hn.ne', fun h => absurd h (hnone n)⟩

/-- The indices of the Codebook are the nibbles (R118). -/
theorem uniqueNearest_codebook_iff (v : Byte) (n : Nibble) : UniqueNearest codebook v n.toNat ↔
    ∀ m : Nibble, m ≠ n → hd v (codeword n) < hd v (codeword m) := by
  constructor
  · exact fun ⟨_, hnearer⟩ m hm => hnearer m.toNat m.isLt fun h => hm (BitVec.eq_of_toNat_eq h)
  · refine fun hnearer => ⟨n.isLt, fun m hm hmn => ?_⟩
    have hnat : (BitVec.ofNat 4 m).toNat = m := (BitVec.toNat_ofNat m 4).trans (Nat.mod_eq_of_lt hm)
    have hlt := hnearer (BitVec.ofNat 4 m) fun h => hmn (by rw [← h, hnat])
    rwa [codeword, codeword, hnat] at hlt

/-- Settles O36: the table is its builder's output, whose entries are the unique nearest codewords. -/
theorem reverseMapGivesUniqueNearest : Obligations.ReverseMapGivesUniqueNearest := by
  refine fun v => ⟨fun n => ?_, reverseMap_le_sentinel v⟩
  rw [reverseMapIsBuilderOutput v, buildReverseMapEntry_eq_iff codebook v n.toNat n.isLt, uniqueNearest_codebook_iff]

theorem symbolOf_eq_definite (r : BitVec 5) (n : Nibble) (h : r.toNat = n.toNat) : symbolOf r = .definite n := by
  have hlt : r.toNat < Config.sentinel := h ▸ n.isLt
  rw [symbolOf, if_pos hlt, Symbol.definite.injEq]
  exact BitVec.eq_of_toNat_eq (by rw [BitVec.toNat_setWidth, h, Nat.mod_eq_of_lt n.isLt])

/-- The Codebook's minimum distance (R114). -/
theorem three_le_hd_codeword : ∀ m n : Nibble, m ≠ n → 3 ≤ hd (codeword m) (codeword n) := by decide +kernel

/-- A byte within one bit of a codeword is nearer to it than to every other, by the triangle inequality. -/
theorem hd_codeword_lt_of_le_one (v : Byte) (n m : Nibble) (hv : hd v (codeword n) ≤ 1) (hmn : m ≠ n) :
    hd v (codeword n) < hd v (codeword m) := by
  have hmin := three_le_hd_codeword m n hmn
  have htriangle := hd_triangle (codeword m) v (codeword n)
  have hcomm := hd_comm (codeword m) v
  omega

/-- Settles O38: within one bit the codeword is the unique nearest, so the ReverseMap gives its nibble. -/
theorem codewordsSurviveOneBitError : Obligations.CodewordsSurviveOneBitError :=
  ⟨three_le_hd_codeword, fun n v hv => symbolOf_eq_definite _ n
    (((reverseMapGivesUniqueNearest v).1 n).2 fun m => hd_codeword_lt_of_le_one v n m hv)⟩

end Sys2Proof.Proofs
end

section
/-! PROOFS. O9 and O10: what `ENCNIB` and `LOOKUP` write (41_codebook.md rules R120 and R121). -/

namespace Sys2Proof.Proofs
open Sys2Proof Sys2Proof.Machine

/-- The word of a command with only `ARG` set, as a number (R72). -/
theorem packWord_arg (op : BitVec 4) (b : Byte) :
    packWord op { rsv0 := 0#4, arg := b, rsv1 := 0#8, len := 0#8 } = BitVec.ofNat 32 (op.toNat + 256 * b.toNat) := by
  simpa [Nat.mul_comm] using (ofNat_eq_packWord_arg op b.toNat (by omega)).symm

/-- A command whose checks pass is performed, with `STATUS.ERR` 0 (R100). -/
theorem exec_of_verdict_ok (i : Instr) (s : State) (h : verdict i = .ok) :
    exec i s = .next ((effect i s).setErr 0#4) := by
  rw [exec_eq, h]; rfl

/-- A command that fails with `ERR_RESERVED` writes 3 to `STATUS.ERR` and nothing else (R172). -/
theorem exec_of_verdict_reserved (i : Instr) (s : State) (h : verdict i = .reserved) :
    exec i s = .next { s with err := 3#4 } := by
  rw [exec_eq, h]; rfl

/-- `ARG[7:4]` is 0 exactly for a nibble operand. -/
theorem argHigh_eq_zero_iff (b : Byte) : b.extractLsb' 4 4 = 0#4 ↔ b.toNat < 16 := by
  rw [← BitVec.toNat_inj, BitVec.extractLsb'_toNat, Nat.shiftRight_eq_div_pow, BitVec.toNat_ofNat]
  omega

theorem nibbleOperand_toNat (f : Fields) (h : f.arg.toNat < 16) : (nibbleOperand f).toNat = f.arg.toNat :=
  Nat.mod_eq_of_lt h

theorem effect_encnib (f : Fields) (s : State) (h : f.arg.toNat < 16) :
    effect (.encnib f) s = s.setResult (codebook.getD f.arg.toNat 0#8) := by
  rw [effect, codeword, nibbleOperand_toNat f h]

/-- Settles O9: the word as a number, and the one check of `ENCNIB` passed or failed. -/
theorem encnibGivesCodeword : Obligations.EncnibGivesCodeword := by
  refine ⟨fun n => ?word, fun f s => ?outcome⟩
  case word =>
    rw [encode, Instr.opcode, Instr.fields, packWord_arg, BitVec.toNat_setWidth_of_le (by decide)]
    rfl
  case outcome =>
    rw [← argHigh_eq_zero_iff]
    refine ⟨fun hlegal => ?_, fun hset => exec_of_verdict_reserved _ s (if_neg hset)⟩
    have hok : verdict (.encnib f) = .ok := (checkNibbleOperand_eq_ok_iff f).2 hlegal
    obtain ⟨-, -, harg, -⟩ := hlegal
    rw [exec_of_verdict_ok _ s hok, effect_encnib f s ((argHigh_eq_zero_iff f.arg).1 harg)]
    rfl

/-- Settles O10: the word as a number, and the one check of `LOOKUP` passed or failed. -/
theorem lookupGivesReverseMapEntry : Obligations.LookupGivesReverseMapEntry := by
  refine ⟨packWord_arg 2#4, fun f s => ⟨fun hlegal => ?_, fun hset => exec_of_verdict_reserved _ s (if_neg hset)⟩⟩
  have hok : verdict (.lookup f) = .ok := (checkByteOperand_eq_ok_iff f).2 hlegal
  rw [exec_of_verdict_ok _ s hok, effect, deliverEntry, byteOperand, BitVec.ofNat_toNat]
  rfl

end Sys2Proof.Proofs
end

section
/-! PROOFS. O39, O40 and O41: the transposition and its inverse move bits, each along the map of 42_transpose.md rules
R130 and R131, so what they do to a buffer follows bit by bit. -/

namespace Sys2Proof.Proofs
open Sys2Proof Sys2Proof.Machine

/-- Where `T` sends bit `b` of byte `i` (R130, read from the input). -/
theorem transpose_bit_of_input (x : List Byte) (i b : Nat) (hi : i < 48) (hb : b < 8) :
    (byteAt (transpose x) (6 * b + i / 8)).getLsbD (i % 8) = (byteAt x i).getLsbD b := by
  have hbyte : 8 * ((6 * b + i / 8) % 6) + i % 8 = i := by omega
  have hbit : (6 * b + i / 8) / 6 = b := by omega
  rw [transpose_bit x _ _ (by omega) (by omega), hbyte, hbit]

/-- Where the inverse of `T` sends bit `k` of byte `j` (R131, read from the input). -/
theorem untranspose_bit_of_input (y : List Byte) (j k : Nat) (hj : j < 48) (hk : k < 8) :
    (byteAt (untranspose y) (8 * (j % 6) + k)).getLsbD (j / 6) = (byteAt y j).getLsbD k := by
  have hbyte : 6 * (j / 6) + (8 * (j % 6) + k) / 8 = j := by omega
  have hbit : (8 * (j % 6) + k) % 8 = k := by omega
  rw [untranspose_bit y _ _ (by omega) (by omega), hbyte, hbit]

/-- Two sequences of 48 bytes are equal when all their bits are. -/
theorem bits_ext (x y : List Byte) (hx : x.length = 48) (hy : y.length = 48)
    (h : ∀ i < 48, ∀ b < 8, (byteAt x i).getLsbD b = (byteAt y i).getLsbD b) : x = y :=
  bytes_ext x y (hx.trans hy.symm) fun i hi => byte_ext _ _ (h i (hx ▸ hi))

theorem untranspose_transpose (x : List Byte) (hx : x.length = 48) : untranspose (transpose x) = x :=
  bits_ext _ x (untranspose_length _) hx fun i hi b hb =>
    (untranspose_bit _ i b hi hb).trans (transpose_bit_of_input x i b hi hb)

theorem transpose_untranspose (y : List Byte) (hy : y.length = 48) : transpose (untranspose y) = y :=
  bits_ext _ y (transpose_length _) hy fun j hj k hk =>
    (transpose_bit _ j k hj hk).trans (untranspose_bit_of_input y j k hj hk)

/-- Settles O39: each map sends a bit back where the other took it from. -/
theorem transpositionRoundTrips : Obligations.TranspositionRoundTrips := fun x hx =>
  ⟨untranspose_transpose x hx, transpose_untranspose x hx⟩

/-- Byte `i` of the XOR of two sequences. -/
theorem byteAt_zipWith_xor (x z : List Byte) (i : Nat) (hx : i < x.length) (hz : i < z.length) :
    byteAt (List.zipWith (· ^^^ ·) x z) i = byteAt x i ^^^ byteAt z i := by
  simp [byteAt, hx, hz]

/-- Settles O40: a bit of either side is the XOR of the bits of `x` and `z` at the place `T` takes it from. -/
theorem transpositionIsLinear : Obligations.TranspositionIsLinear := by
  intro x z hx hz
  refine bits_ext _ _ (transpose_length _) (by simp) fun j hj k hk => ?_
  have hsource : 8 * (j % 6) + k < 48 := by omega
  rw [transpose_bit _ j k hj hk, byteAt_zipWith_xor x z _ (hx ▸ hsource) (hz ▸ hsource),
    byteAt_zipWith_xor _ _ j (by simpa using hj) (by simpa using hj), BitVec.getLsbD_xor, BitVec.getLsbD_xor,
    transpose_bit x j k hj hk, transpose_bit z j k hj hk]

/-- Settles O41: bit `c` of a reverse-transposed byte comes from group `c`, where the buffers agree. -/
theorem groupDamageStaysInOnePlane : Obligations.GroupDamageStaysInOnePlane := by
  intro y y' b hagree i hi c hc hcb
  have hgroup : (6 * c + i / 8) / 6 = c := by omega
  rw [untranspose_bit y i c hi hc, untranspose_bit y' i c hi hc,
    hagree (6 * c + i / 8) (by omega) (hgroup.symm ▸ hcb)]

end Sys2Proof.Proofs
end

section
/-! PROOFS. O11 and O12: what `XFWD` and `XREV` write (42_transpose.md rules R133 and R134), from what every command
that fills `OUT` leaves unchanged and how it fails. -/

namespace Sys2Proof.Proofs
open Sys2Proof Sys2Proof.Machine

/-- A performed command that writes the bytes `bs` to `OUT`, its length `n` to `OUT_LEN` and 0 to `STATUS.ERR`. -/
def filledOut (bs : List Byte) (n : Byte) (s : State) : State := ((s.writeOut bs).setOutLen n).setErr 0#4

theorem exec_xfwd (f : Fields) (s : State) (hlegal : f.rsv0 = 0#4 ∧ f.rsv1 = 0#8 ∧ f.arg = 0#8 ∧ f.len = 48#8) :
    exec (.xfwd f) s = .next (filledOut (transpose (inBytes s 48)) 48#8 s) :=
  exec_of_verdict_ok _ s ((checkBufferOperand_eq_ok_iff 48#8 f).2 hlegal)

theorem exec_xrev (f : Fields) (s : State) (hlegal : f.rsv0 = 0#4 ∧ f.rsv1 = 0#8 ∧ f.arg = 0#8 ∧ f.len = 48#8) :
    exec (.xrev f) s = .next (filledOut (untranspose (inBytes s 48)) 48#8 s) :=
  exec_of_verdict_ok _ s ((checkBufferOperand_eq_ok_iff 48#8 f).2 hlegal)

/-- The bytes of `OUT` that a command fills. -/
theorem outByte_filledOut (bs : List Byte) (n : Byte) (s : State) (k : Nat) (hk : k < bs.length) :
    outByte (filledOut bs n s) k = byteAt bs k := by
  rw [filledOut, outByte_setErr, outByte_setOutLen, outByte_writeOut, if_pos hk]

/-- What filling `OUT` leaves unchanged, and the two fields it sets (R29, R101, R102). -/
theorem filledOut_frame (bs : List Byte) (n : Byte) (s : State) :
    (∀ a, ¬(0x200 ≤ a ∧ a < 0x200 + bs.length) → Memory.read (filledOut bs n s).mem a = Memory.read s.mem a) ∧
    (filledOut bs n s).outLen = n ∧ (filledOut bs n s).err = 0#4 ∧ (filledOut bs n s).decErr = s.decErr ∧
    (filledOut bs n s).ambig = s.ambig ∧ (filledOut bs n s).result = s.result ∧
    (filledOut bs n s).pending = s.pending ∧ (filledOut bs n s).response = s.response :=
  ⟨read_writeOut_outside s bs, rfl, rfl, rfl, rfl, rfl, rfl, rfl⟩

/-- A command that fails with `ERR_LENGTH` writes 1 to `STATUS.ERR` and nothing else (R172). -/
theorem exec_of_verdict_length (i : Instr) (s : State) (h : verdict i = .length) :
    exec i s = .next { s with err := 1#4 } := by
  rw [exec_eq, h]; rfl

theorem checkBufferOperand_eq_reserved (required : Byte) (f : Fields)
    (hset : f.rsv0 ≠ 0#4 ∨ f.rsv1 ≠ 0#8 ∨ f.arg ≠ 0#8) : checkBufferOperand required f = .reserved :=
  if_neg (by tauto)

theorem checkBufferOperand_eq_length (required : Byte) (f : Fields)
    (hlen : f.rsv0 = 0#4 ∧ f.rsv1 = 0#8 ∧ f.arg = 0#8 ∧ f.len ≠ required) :
    checkBufferOperand required f = .length := by
  obtain ⟨hrsv0, hrsv1, harg, hlen⟩ := hlen
  rw [checkBufferOperand, if_pos ⟨hrsv0, hrsv1, harg⟩, if_neg hlen]

/-- How a buffer command fails (R79, R172): a bit set beside `LEN` first, then a wrong `LEN`. -/
theorem exec_bufferCommand_fails (i : Instr) (required : Byte) (f : Fields) (s : State)
    (hcheck : verdict i = checkBufferOperand required f) :
    (f.rsv0 ≠ 0#4 ∨ f.rsv1 ≠ 0#8 ∨ f.arg ≠ 0#8 → exec i s = .next { s with err := 3#4 }) ∧
    (f.rsv0 = 0#4 ∧ f.rsv1 = 0#8 ∧ f.arg = 0#8 ∧ f.len ≠ required → exec i s = .next { s with err := 1#4 }) :=
  ⟨fun hset => exec_of_verdict_reserved i s (hcheck.trans (checkBufferOperand_eq_reserved required f hset)),
    fun hlen => exec_of_verdict_length i s (hcheck.trans (checkBufferOperand_eq_length required f hlen))⟩

/-- Settles O11: the bits by R130's map, the rest by what filling `OUT` leaves unchanged. -/
theorem xfwdTransposesInput : Obligations.XfwdTransposesInput := by
  refine ⟨rfl, fun f s => ⟨fun hlegal => ?_, exec_bufferCommand_fails (.xfwd f) 48#8 f s rfl⟩⟩
  have hframe := filledOut_frame (transpose (inBytes s 48)) 48#8 s
  rw [transpose_length] at hframe
  refine ⟨_, exec_xfwd f s hlegal, fun i hi b hb => ?_, hframe⟩
  rw [outByte_filledOut _ _ _ _ (by simp only [transpose_length]; omega), transpose_bit_of_input _ i b hi hb,
    byteAt_inBytes s 48 i hi]

/-- A host copy of the bytes `bs` of `OUT` into `IN` is what the next command reads (R28). -/
theorem inBytes_eq_of_copy (bs : List Byte) (n : Byte) (s u : State)
    (hcopy : ∀ k < bs.length, inByte u k = outByte (filledOut bs n s) k) : inBytes u bs.length = bs := by
  refine bytes_ext _ bs (inBytes_length u _) fun k hk => ?_
  rw [inBytes_length] at hk
  rw [byteAt_inBytes u _ k hk, hcopy k hk, outByte_filledOut bs n s k hk]

/-- Settles O12: the bits by R131's map, the rest by what filling `OUT` leaves unchanged; after the copy the operand of
`XREV` is the transposed one of `XFWD`, which the inverse undoes. -/
theorem xrevReverseTransposesInput : Obligations.XrevReverseTransposesInput := by
  refine ⟨rfl, fun f s => ⟨fun hlegal => ?bits, exec_bufferCommand_fails (.xrev f) 48#8 f s rfl⟩,
    fun f g s t u hf hg hexec hcopy => ⟨_, exec_xrev g u hg, fun k hk => ?undo⟩⟩
  case bits =>
    have hframe := filledOut_frame (untranspose (inBytes s 48)) 48#8 s
    rw [untranspose_length] at hframe
    refine ⟨_, exec_xrev f s hlegal, fun j hj k hk => ?_, hframe⟩
    rw [outByte_filledOut _ _ _ _ (by simp only [untranspose_length]; omega), untranspose_bit_of_input _ j k hj hk,
      byteAt_inBytes s 48 j hj]
  case undo =>
    cases (exec_xfwd f s hf).symm.trans hexec
    have hoperand : inBytes u 48 = transpose (inBytes s 48) := by
      simpa using inBytes_eq_of_copy (transpose (inBytes s 48)) 48#8 s u (by simpa using hcopy)
    rw [outByte_filledOut _ _ _ _ (by simpa using hk), hoperand, untranspose_transpose _ (inBytes_length s 48),
      byteAt_inBytes s 48 k hk]

end Sys2Proof.Proofs
end

section
/-! PROOFS. O43, O42 and O13: the Encoder's layout chunk by chunk, so that a stream is split off as it was laid out, and
every codeword bit is where 43_encode.md rule R143 puts it. -/

namespace Sys2Proof.Proofs
open Sys2Proof Sys2Proof.Machine

/-- Chunk `n` of group `b` of a block is group `b` of its stream (R142). -/
theorem byteAt_layout_chunk (h l : List Byte) (n b k : Nat) (hn : n < 4) (hb : b < 8) (hk : k < 6) :
    byteAt (layout h l) (24 * b + 6 * n + k) = byteAt (if n < 2 then h else l) (6 * b + k) := by
  have hgroup : (24 * b + 6 * n + k) / 24 = b := by omega
  have hbyte : (24 * b + 6 * n + k) % 6 = k := by omega
  have hhalf : (24 * b + 6 * n + k) % 24 < 12 ↔ n < 2 := by omega
  rw [byteAt_layout h l _ (by omega), hgroup, hbyte]
  simp only [hhalf]

/-- Stream `n` of a laid out block is the one that was laid out (R142, R150). -/
theorem splitStream_layout (h l : List Byte) (hh : h.length = 48) (hl : l.length = 48) (n : Nat) (hn : n < 4) :
    splitStream (layout h l) n = if n < 2 then h else l := by
  have hlength : (if n < 2 then h else l).length = 48 := by split <;> assumption
  refine bytes_ext _ _ ((splitStream_length _ n).trans hlength.symm) fun j hj => ?_
  rw [splitStream_length] at hj
  have hsource : 6 * (4 * (j / 6) + n) + j % 6 = 24 * (j / 6) + 6 * n + j % 6 := by omega
  rw [byteAt_splitStream _ n j hj, hsource, byteAt_layout_chunk h l n _ _ hn (by omega) (by omega), Nat.div_add_mod]

/-- Settles O43: the four streams, one by one. -/
theorem splitInvertsLayout : Obligations.SplitInvertsLayout := fun h l hh hl =>
  have hsplit := splitStream_layout h l hh hl
  ⟨hsplit 0 (by decide), hsplit 1 (by decide), hsplit 2 (by decide), hsplit 3 (by decide)⟩

/-- Settles O42: the layout puts group `b` of a transposed stream whole into the block, and `T` puts bit `b` of
codeword `i` into that group. -/
theorem codewordBitsPlacedInBlock : Obligations.CodewordBitsPlacedInBlock := by
  intro m _ n hn b hb i hi
  rw [encodeBlock, byteAt_layout_chunk _ _ n b (i / 8) hn hb (by omega), ← apply_ite transpose,
    transpose_bit_of_input _ i b hi hb]

/-- Codeword `i` of stream `n` of a message (R140). -/
theorem byteAt_stream (m : List Byte) (n i : Nat) (hi : i < m.length) :
    byteAt (if n < 2 then highStream m else lowStream m) i =
      codeword (if n < 2 then hiNibble (byteAt m i) else loNibble (byteAt m i)) := by
  split
  · exact byteAt_map m _ i hi
  · exact byteAt_map m _ i hi

theorem exec_encode (f : Fields) (s : State) (hlegal : f.rsv0 = 0#4 ∧ f.rsv1 = 0#8 ∧ f.arg = 0#8 ∧ f.len = 48#8) :
    exec (.encode f) s = .next (filledOut (encodeBlock (inBytes s 48)) 192#8 s) :=
  exec_of_verdict_ok _ s ((checkBufferOperand_eq_ok_iff 48#8 f).2 hlegal)

/-- Settles O13: the bits by R143, the rest by what filling `OUT` leaves unchanged. -/
theorem encodeWritesBlock : Obligations.EncodeWritesBlock := by
  refine ⟨rfl, fun f s => ⟨fun hlegal => ?_, exec_bufferCommand_fails (.encode f) 48#8 f s rfl⟩⟩
  have hframe := filledOut_frame (encodeBlock (inBytes s 48)) 192#8 s
  rw [encodeBlock_length] at hframe
  refine ⟨_, exec_encode f s hlegal, fun n hn b hb i hi => ?_, hframe⟩
  rw [outByte_filledOut _ _ _ _ (by simp only [encodeBlock_length]; omega),
    codewordBitsPlacedInBlock _ (inBytes_length s 48) n hn b hb i hi, byteAt_stream _ n i (by simpa using hi),
    byteAt_inBytes s 48 i hi]
  rfl

end Sys2Proof.Proofs
end

section
/-! PROOFS. O44 and O14: what `DECODE` writes (44_decode.md rules R150 to R156), each stream byte read from the block
bits that 43_encode.md rule R143 names. -/

namespace Sys2Proof.Proofs
open Sys2Proof Sys2Proof.Machine

theorem resolve_comm (a b : Symbol) : resolve a b = resolve b a := by
  cases a with
  | ambiguous => cases b <;> rfl
  | definite x =>
    cases b with
    | ambiguous => rfl
    | definite y =>
      by_cases h : x = y
      · rw [h]
      · simp [resolve, h, Ne.symm h]

/-- Settles O44: the rows of the table, and its symmetry. -/
theorem resolveFollowsTable : Obligations.ResolveFollowsTable :=
  ⟨fun _ => if_pos rfl, fun _ _ hne => if_neg hne, fun _ => rfl, fun _ => rfl, rfl, resolve_comm⟩

/-- Byte `i` of stream `n` of a block, put together from the bits of R143. -/
def streamByte (block : Nat → Byte) (n i : Nat) : Byte :=
  byteOfBits fun b => (block (24 * b + 6 * n + i / 8)).getLsbD (i % 8)

/-- What the Decoder reads for byte `i` of stream `n` of a block (R152). -/
def streamSymbol (block : Nat → Byte) (n i : Nat) : Symbol := symbolOf (reverseMap (streamByte block n i))

theorem streamByte_bit (block : Nat → Byte) (n i b : Nat) (hb : b < 8) :
    (streamByte block n i).getLsbD b = (block (24 * b + 6 * n + i / 8)).getLsbD (i % 8) :=
  byteOfBits_getLsbD _ b hb

/-- A stream byte depends on the 192 bytes of the block only. -/
theorem streamByte_congr {x y : Nat → Byte} (h : ∀ p < 192, x p = y p) {n i : Nat} (hn : n < 4) (hi : i < 48) :
    streamByte x n i = streamByte y n i :=
  byte_ext _ _ fun b hb => by rw [streamByte_bit x n i b hb, streamByte_bit y n i b hb, h _ (by omega)]

/-- Splitting and reverse-transposing a block takes each stream byte from the bits of R143 (R150, R151). -/
theorem byteAt_untranspose_splitStream (e : List Byte) (n i : Nat) (hi : i < 48) :
    byteAt (untranspose (splitStream e n)) i = streamByte (byteAt e) n i :=
  byte_ext _ _ fun b hb => by
    have hsource : 6 * (4 * ((6 * b + i / 8) / 6) + n) + (6 * b + i / 8) % 6 = 24 * b + 6 * n + i / 8 := by omega
    rw [untranspose_bit _ i b hi hb, byteAt_splitStream e n _ (by omega), hsource, streamByte_bit _ n i b hb]

theorem symbolAt_eq_streamSymbol (e : List Byte) (n i : Nat) (hi : i < 48) :
    symbolAt (streamSymbols e n) i = streamSymbol (byteAt e) n i := by
  rw [symbolAt_streamSymbols e n i hi, byteAt_untranspose_splitStream e n i hi, streamSymbol]

/-- Byte `i` of the decoded message, from the symbols of the four streams (R153, R154). -/
theorem byteAt_decodedMessage_eq_combine (e : List Byte) (i : Nat) (hi : i < 48) :
    byteAt (decodedMessage e) i =
      combineNibbles (resolve (streamSymbol (byteAt e) 0 i) (streamSymbol (byteAt e) 1 i)).1
        (resolve (streamSymbol (byteAt e) 2 i) (streamSymbol (byteAt e) 3 i)).1 := by
  simp only [byteAt_decodedMessage e i hi, symbolAt_eq_streamSymbol e _ i hi, decodePosition]

/-- The error flag, from the symbols of the four streams (R154, R156). -/
theorem hasError_iff_unresolved (e : List Byte) :
    hasError e = true ↔ ∃ i < 48,
      (resolve (streamSymbol (byteAt e) 0 i) (streamSymbol (byteAt e) 1 i)).2 = true ∨
        (resolve (streamSymbol (byteAt e) 2 i) (streamSymbol (byteAt e) 3 i)).2 = true := by
  rw [hasError_iff]
  refine exists_congr fun i => and_congr_right fun hi => ?_
  simp only [symbolAt_eq_streamSymbol e _ i hi, decodePosition, Bool.or_eq_true]

/-- The operand of `DECODE` is read where `IN` holds it (R28). -/
theorem streamSymbol_inBytes (s : State) (n i : Nat) (hn : n < 4) (hi : i < 48) :
    streamSymbol (byteAt (inBytes s 192)) n i = streamSymbol (inByte s) n i := by
  rw [streamSymbol, streamByte_congr (byteAt_inBytes s 192) hn hi, streamSymbol]

theorem exec_decode (f : Fields) (s : State) (hlegal : f.rsv0 = 0#4 ∧ f.rsv1 = 0#8 ∧ f.arg = 0#8 ∧ f.len = 192#8) :
    exec (.decode f) s =
      .next ((filledOut (decodedMessage (inBytes s 192)) 48#8 s).setDecErr (hasError (inBytes s 192))) :=
  exec_of_verdict_ok _ s ((checkBufferOperand_eq_ok_iff 192#8 f).2 hlegal)

/-- The bytes of `OUT` that `DECODE` fills. -/
theorem outByte_decoded (e : List Byte) (flag : Bool) (s : State) (k : Nat) (hk : k < 48) :
    outByte ((filledOut (decodedMessage e) 48#8 s).setDecErr flag) k = byteAt (decodedMessage e) k := by
  rw [outByte_setDecErr, outByte_filledOut _ _ _ k (by simpa using hk)]

/-- Settles O14: message and flag by the symbols of the four streams, the rest by what filling `OUT` leaves
unchanged. -/
theorem decodeWritesMessageAndFlag : Obligations.DecodeWritesMessageAndFlag := by
  refine ⟨rfl, fun f s => ⟨fun hlegal => ?_, exec_bufferCommand_fails (.decode f) 192#8 f s rfl⟩⟩
  obtain ⟨hmem, hlen, herr, -, hambig, hresult, hpending, hresponse⟩ :=
    filledOut_frame (decodedMessage (inBytes s 192)) 48#8 s
  rw [decodedMessage_length] at hmem
  refine ⟨_, exec_decode f s hlegal, fun i hi => ?message, ?flag, hmem, hlen, herr, hambig, hresult, hpending,
    hresponse⟩
  case message =>
    rw [outByte_decoded _ _ s i hi, byteAt_decodedMessage_eq_combine _ i hi]
    simp (disch := omega) only [streamSymbol_inBytes]
    rfl
  case flag =>
    rw [setDecErr_decErr, hasError_iff_unresolved]
    refine exists_congr fun i => and_congr_right fun hi => ?_
    simp (disch := omega) only [streamSymbol_inBytes]
    rfl

end Sys2Proof.Proofs
end

section
/-! PROOFS. O46, O45, O47 and O48: which damage to a block the Decoder corrects (44_decode.md rules R158 to R161). Each
plane of a block is 24 bytes, and a stream byte has one bit in each, so it survives while at most one plane is hit at
its bit. -/

namespace Sys2Proof.Proofs
open Sys2Proof Sys2Proof.Machine

/-- The half of a message byte that stream `n` carries (R140). -/
def halfOf (n : Nat) (b : Byte) : Nibble := if n < 2 then hiNibble b else loNibble b

theorem combineNibbles_halves (b : Byte) : combineNibbles (hiNibble b) (loNibble b) = b := by
  refine byte_ext _ _ fun k hk => ?_
  by_cases h : k < 4
  · simp [combineNibbles, hiNibble, loNibble, hk, h]
  · have hsplit : 4 + (k - 4) = k := by omega
    have hhigh : k - 4 < 4 := by omega
    simp [combineNibbles, hiNibble, loNibble, hk, h, hsplit, hhigh]

/-- The streams of an encoded block hold the codewords of the message's halves (R143). -/
theorem streamByte_encodeBlock (m : List Byte) (hm : m.length = 48) (n i : Nat) (hn : n < 4) (hi : i < 48) :
    streamByte (byteAt (encodeBlock m)) n i = codeword (halfOf n (byteAt m i)) :=
  byte_ext _ _ fun b hb => by
    rw [streamByte_bit _ n i b hb, codewordBitsPlacedInBlock m hm n hn b hb i hi, byteAt_stream m n i (hm ▸ hi), halfOf]

/-- The condition of R159 on a received block: no two planes are wrong at the bit of one stream byte. -/
def SparseErrors (received sent : Nat → Byte) : Prop :=
  ∀ n < 4, ∀ i < 48, ∀ b < 8, ∀ c < 8,
    (received (24 * b + 6 * n + i / 8) ^^^ sent (24 * b + 6 * n + i / 8)).getLsbD (i % 8) = true →
    (received (24 * c + 6 * n + i / 8) ^^^ sent (24 * c + 6 * n + i / 8)).getLsbD (i % 8) = true → b = c

theorem SparseErrors.congr {x x' y y' : Nat → Byte} (h : SparseErrors x y) (hx : ∀ p < 192, x' p = x p)
    (hy : ∀ p < 192, y' p = y p) : SparseErrors x' y' := by
  intro n hn i hi b hb c hc
  rw [hx _ (by omega), hx _ (by omega), hy _ (by omega), hy _ (by omega)]
  exact h n hn i hi b hb c hc

/-- Two bytes that do not differ in two bits are within distance 1. -/
theorem hd_le_one_of_bits (v w : Byte)
    (h : ∀ b < 8, ∀ c < 8, (v ^^^ w).getLsbD b = true → (v ^^^ w).getLsbD c = true → b = c) : hd v w ≤ 1 := by
  rw [hd, popcount_eq_card, Finset.card_le_one]
  intro b hb c hc
  exact Fin.ext (h b b.isLt c c.isLt (Finset.mem_filter.1 hb).2 (Finset.mem_filter.1 hc).2)

/-- Under sparse errors every stream byte is within one bit of the one sent. -/
theorem SparseErrors.hd_streamByte_le_one {x y : Nat → Byte} (h : SparseErrors x y) (n i : Nat) (hn : n < 4)
    (hi : i < 48) : hd (streamByte x n i) (streamByte y n i) ≤ 1 := by
  have hbit (b : Nat) (hb : b < 8) : (streamByte x n i ^^^ streamByte y n i).getLsbD b =
      (x (24 * b + 6 * n + i / 8) ^^^ y (24 * b + 6 * n + i / 8)).getLsbD (i % 8) := by
    simp only [BitVec.getLsbD_xor, streamByte_bit _ n i b hb]
  refine hd_le_one_of_bits _ _ fun b hb c hc => ?_
  rw [hbit b hb, hbit c hc]
  exact h n hn i hi b hb c hc

/-- Under sparse errors every copy of a half is read as it was sent (R116, R159). -/
theorem SparseErrors.streamSymbol_eq {m : List Byte} (hm : m.length = 48) {received : Nat → Byte}
    (h : SparseErrors received (byteAt (encodeBlock m))) (n i : Nat) (hn : n < 4) (hi : i < 48) :
    streamSymbol received n i = .definite (halfOf n (byteAt m i)) := by
  refine codewordsSurviveOneBitError.2 _ _ ?_
  rw [← streamByte_encodeBlock m hm n i hn hi]
  exact h.hd_streamByte_le_one n i hn hi

/-- R159 for blocks: under sparse errors both copies of every half agree, so nothing is unresolved and each byte is
put together again from its halves. -/
theorem SparseErrors.decoded {m e : List Byte} (hm : m.length = 48)
    (h : SparseErrors (byteAt e) (byteAt (encodeBlock m))) : hasError e = false ∧ decodedMessage e = m := by
  have hhigh (i : Nat) (hi : i < 48) : resolve (streamSymbol (byteAt e) 0 i) (streamSymbol (byteAt e) 1 i) =
      (hiNibble (byteAt m i), false) := by
    rw [h.streamSymbol_eq hm 0 i (by decide) hi, h.streamSymbol_eq hm 1 i (by decide) hi]
    exact resolveFollowsTable.1 _
  have hlow (i : Nat) (hi : i < 48) : resolve (streamSymbol (byteAt e) 2 i) (streamSymbol (byteAt e) 3 i) =
      (loNibble (byteAt m i), false) := by
    rw [h.streamSymbol_eq hm 2 i (by decide) hi, h.streamSymbol_eq hm 3 i (by decide) hi]
    exact resolveFollowsTable.1 _
  constructor
  · rw [Bool.eq_false_iff, Ne, hasError_iff_unresolved]
    rintro ⟨i, hi, hunresolved⟩
    simp [hhigh i hi, hlow i hi] at hunresolved
  · refine bytes_ext _ m (by simp [hm]) fun i hi => ?_
    rw [decodedMessage_length] at hi
    rw [byteAt_decodedMessage_eq_combine e i hi, hhigh i hi, hlow i hi, combineNibbles_halves]

/-- Settles O46: R159 for blocks, with the received one in `IN` and the sent one in `OUT`. -/
theorem sparseErrorsAreCorrected : Obligations.SparseErrorsAreCorrected := by
  intro s t u f g hf hg hexec hsparse
  cases (exec_encode f s hf).symm.trans hexec
  have hblocks : SparseErrors (byteAt (inBytes u 192)) (byteAt (encodeBlock (inBytes s 48))) :=
    SparseErrors.congr hsparse (byteAt_inBytes u 192) fun p hp =>
      (outByte_filledOut _ _ _ p (by simpa using hp)).symm
  obtain ⟨hflag, hmessage⟩ := hblocks.decoded (inBytes_length s 48)
  refine ⟨_, exec_decode g u hg, rfl, hflag, fun k hk => ?_⟩
  rw [outByte_decoded _ _ u k hk, hmessage, byteAt_inBytes s 48 k hk]

theorem ne_of_xor_bit {v w : Byte} {k : Nat} (h : (v ^^^ w).getLsbD k = true) : v ≠ w := by
  rintro rfl
  simp at h

/-- Settles O45: a block received as it was sent has no errors at all. -/
theorem decodeOfEncodeReturnsMessage : Obligations.DecodeOfEncodeReturnsMessage := by
  intro s u f g hf hg
  refine ⟨_, exec_encode f s hf, fun hcopy => sparseErrorsAreCorrected s _ u f g hf hg (exec_encode f s hf) ?_⟩
  intro n hn i hi b hb c hc hwrong
  exact absurd (hcopy _ (by omega)) (ne_of_xor_bit hwrong)

/-- A run of 192 bits hits no stream byte twice, whatever the order `place` of the bits in a byte: the bits of one
stream byte lie 192 apart (R160). -/
theorem sparseErrors_of_burst (received sent : Nat → Byte) (place : Nat → Nat) (start : Nat)
    (h : ∀ j < 192, ∀ k < 8, (received j ^^^ sent j).getLsbD k = true →
      start ≤ 8 * j + place k ∧ 8 * j + place k < start + 192) : SparseErrors received sent := by
  intro n hn i hi b hb c hc hwrongb hwrongc
  have hbitb := h _ (by omega) _ (by omega) hwrongb
  have hbitc := h _ (by omega) _ (by omega) hwrongc
  omega

/-- An unresolved high half sets the error flag (R154). -/
theorem hasError_of_high_unresolved (e : List Byte) (i : Nat) (hi : i < 48)
    (h : (resolve (streamSymbol (byteAt e) 0 i) (streamSymbol (byteAt e) 1 i)).2 = true) : hasError e = true :=
  (hasError_iff_unresolved e).2 ⟨i, hi, .inl h⟩

/-- Settles O47: a run of 192 bits is sparse in both numberings; with one bit more, the high copies of byte 0 read
0x33 and 0x31, which are the halves 11 and 5. -/
theorem singleBurstIsCorrected : Obligations.SingleBurstIsCorrected := by
  refine ⟨fun s t u f g start hf hg hexec hburst => ?run192, ?run193⟩
  case run192 =>
    have hsparse : SparseErrors (inByte u) (outByte t) :=
      hburst.elim (sparseErrors_of_burst _ _ id start) (sparseErrors_of_burst _ _ (7 - ·) start)
    exact ⟨hsparse, sparseErrorsAreCorrected s t u f g hf hg hexec hsparse⟩
  case run193 => exact hasError_of_high_unresolved _ 0 (by decide) (by decide +kernel)

/-- Settles O48: bytes 0 to 11 and 24 to 35 hold two bits of each high codeword, so both copies are ambiguous; bytes 0
to 11 and 12 to 23 are one run of 192 bits. -/
theorem twoBurstsCanFail : Obligations.TwoBurstsCanFail := by
  unfold Obligations.TwoBurstsCanFail
  intro block flipped
  refine ⟨hasError_of_high_unresolved _ 0 (by decide) (by decide +kernel), ?_⟩
  refine SparseErrors.decoded (by simp) (sparseErrors_of_burst _ _ id 0 fun j hj k hk hwrong => ?_)
  have hfirst : j < 24 := by
    by_contra hge
    have hunflipped : byteAt (flipped 12) j = byteAt block j :=
      (byteAt_map_range _ 192 j hj).trans (if_neg (by omega))
    exact ne_of_xor_bit hwrong hunflipped
  simp only [id]
  omega

end Sys2Proof.Proofs
end

section
/-! PROOFS. O16: every command completes, `STATUS.ERR` tells whether it succeeded, and a failing one is precise
(60_exceptions.md rules R170 and R172). -/

namespace Sys2Proof.Proofs
open Sys2Proof Sys2Proof.Machine

/-- Every command completes: there is no trap and nothing is refused (R100, R175). -/
theorem exec_completes (i : Instr) (s : State) : ∃ t, exec i s = .next t :=
  ⟨_, (exec_eq i s).trans (runChecked_eq _ _ s)⟩

/-- After a command `STATUS.ERR` is 0 exactly when its checks passed (R101). -/
theorem err_exec_eq_zero_iff (i : Instr) (s t : State) (h : exec i s = .next t) : t.err = 0#4 ↔ verdict i = .ok := by
  rw [err_exec i s t h, code_eq_zero]

/-- The codes of a failing command (R170). -/
theorem code_of_ne_ok (c : ErrCode) (h : c ≠ .ok) : c.code = 1#4 ∨ c.code = 2#4 ∨ c.code = 3#4 := by
  cases c with
  | ok => exact absurd rfl h
  | length => exact .inl rfl
  | opcode => exact .inr (.inl rfl)
  | reserved => exact .inr (.inr rfl)

/-- Settles O16: `STATUS.ERR` is 0 when the checks passed, which is when the command is legal; a failing command is
`fail` of its code. -/
theorem errTellsSuccessAndFailureIsPrecise : Obligations.ErrTellsSuccessAndFailureIsPrecise := by
  intro i s
  obtain ⟨t, ht⟩ := exec_completes i s
  have hok := err_exec_eq_zero_iff i s t ht
  refine ⟨t, ht, hok.trans (verdict_eq_ok_iff i), fun hfails => ?_⟩
  obtain ⟨hpassed, -⟩ | ⟨hfailed, rfl⟩ := exec_cases i s t ht
  · exact absurd (hok.2 hpassed) hfails
  · exact ⟨rfl, code_of_ne_ok _ hfailed⟩

end Sys2Proof.Proofs
end

section
/-! PROOFS. O30: the reset input puts the record at its reset values (70_reset_and_hazards.md rule R190). -/

namespace Sys2Proof.Proofs
open Sys2Proof Sys2Proof.Machine

/-- What reset leaves of the state before it is the pending events only, which are no part of the record (R190). -/
theorem record_takeReset (s : State) : { takeReset s with pending := [], response := .none } = State.reset := rfl

/-- Two resets in a row leave the same state as one (R190). -/
theorem takeReset_takeReset (s : State) : takeReset (takeReset s) = takeReset s := rfl

/-- A reset during a held command differs from one between accesses in the answer to the write only (R190). -/
theorem record_takeReset_setResponse (s : State) (r : Response) :
    { (takeReset s).setResponse r with pending := [], response := .none } = State.reset := rfl

theorem readWindow_takeReset (s : State) (off : Nat) : readWindow (takeReset s) off = readWindow State.reset off :=
  readWindow_setPending State.reset s.pending off

theorem inByte_takeReset (s : State) (k : Nat) : inByte (takeReset s) k = 0x00#8 := Memory.read_nil _

theorem outByte_takeReset (s : State) (k : Nat) : outByte (takeReset s) k = 0x00#8 := Memory.read_nil _

/-- The regions of the registers the record stands behind (R24, R25, R26). -/
def fieldRegions : List Region := [.status, .result, .outLen]

/-- The fields are 0 at reset (R33), so their registers read 0. -/
theorem readWindow_reset_fieldRegion (off : Nat) (h : regionOf off ∈ fieldRegions) :
    readWindow State.reset off = 0#32 := by
  cases hreg : regionOf off with
  | status => exact (readWindow_status _ _ hreg).trans (by decide)
  | result => exact (readWindow_result _ _ hreg).trans (by decide)
  | outLen => exact (readWindow_outLen _ _ hreg).trans (by decide)
  | _ => exact absurd (hreg ▸ h) (by decide)

/-- Settles O30: a reset event takes the reset, alone or under a held command, and its state reads as the reset state,
whose constants and zero fields the regions of the window give. -/
theorem resetReachesResetState : Obligations.ResetReachesResetState := by
  intro s w r
  refine ⟨⟨takeReset s, takeReset (takeReset s), rfl, rfl, record_takeReset s, ?twice, ?id, ?cmd, ?status, ?result,
    ?outLen, ?param, fun k _ => ⟨inByte_takeReset s k, outByte_takeReset s k⟩⟩,
    (takeReset s).setResponse r, rfl, record_takeReset_setResponse s r⟩
  case twice => rw [takeReset_takeReset]
  case id => exact readWindow_id _ _ (by decide)
  case cmd => exact readWindow_cmd _ _ (by decide)
  case param => exact readWindow_param _ _ (by decide)
  case status | result | outLen =>
    exact (readWindow_takeReset s _).trans (readWindow_reset_fieldRegion _ (by decide))

end Sys2Proof.Proofs
end
